-- ==== Sys2Proof/Word.lean ====
section
/-! DEFINITION. The bit-vector types of the machine (spec/00_scope.md section 5: every value is an unsigned integer of its
stated width, bit 0 the least significant). -/

namespace Sys2Proof

/-- The addressable unit, and the width of a general register and of a timer (R3, R30). -/
abbrev Byte := BitVec 8

/-- An instruction word, and the width of `I`, `pc` and a stack cell (R3, R45). -/
abbrev Word := BitVec 16

/-- A 4-bit field of an instruction word: a register number, or the sprite height (R46). -/
abbrev Nibble := BitVec 4

/-- A general register's number, `x` or `y` of an instruction: all sixteen values are registers (R10, R46). -/
abbrev Reg := Nibble

/-- A 12-bit address operand `nnn` (R46). -/
abbrev Addr12 := BitVec 12

/-- `zext_16` of spec/00_scope.md section 5. -/
abbrev zext16 {w : Nat} (v : BitVec w) : Word := v.setWidth 16

end Sys2Proof
end

