-- ==== Sys2Proof/Syntax.lean ====
section
/-! DEFINITION. The instruction set: one constructor for each of the 34 rows of spec/opcode_table.json (R48), with the operands
the row's format gives it (R46, R47), and the reasons the decoder gives for reading no instruction. -/

namespace Sys2Proof

/-- An instruction with its operands bound. Each operand has exactly the width its field has (R46), so every term is the
decoding of a word. -/
inductive Instr where
  /-- 00E0: clear the display. -/
  | cls
  /-- 00EE: return. -/
  | ret
  /-- 1nnn: jump. -/
  | jp (nnn : Addr12)
  /-- 2nnn: call. -/
  | call (nnn : Addr12)
  /-- 3xkk: skip if `Vx = kk`. -/
  | seImm (x : Reg) (kk : Byte)
  /-- 4xkk: skip if `Vx` differs from `kk`. -/
  | sneImm (x : Reg) (kk : Byte)
  /-- 5xy0: skip if `Vx = Vy`. -/
  | seReg (x y : Reg)
  /-- 6xkk: load an immediate. -/
  | ldImm (x : Reg) (kk : Byte)
  /-- 7xkk: add an immediate, no flag. -/
  | addImm (x : Reg) (kk : Byte)
  /-- 8xy0: move. -/
  | ldReg (x y : Reg)
  /-- 8xy1: bitwise or. -/
  | orReg (x y : Reg)
  /-- 8xy2: bitwise and. -/
  | andReg (x y : Reg)
  /-- 8xy3: bitwise exclusive or. -/
  | xorReg (x y : Reg)
  /-- 8xy4: add with carry out. -/
  | addReg (x y : Reg)
  /-- 8xy5: subtract `Vy` from `Vx`. -/
  | sub (x y : Reg)
  /-- 8xy6: shift `Vy` right into `Vx`. -/
  | shr (x y : Reg)
  /-- 8xy7: subtract `Vx` from `Vy`. -/
  | subn (x y : Reg)
  /-- 8xyE: shift `Vy` left into `Vx`. -/
  | shl (x y : Reg)
  /-- 9xy0: skip if `Vx` differs from `Vy`. -/
  | sneReg (x y : Reg)
  /-- Annn: load the index register. -/
  | ldI (nnn : Addr12)
  /-- Bnnn: jump to `nnn + V0`. -/
  | jpV0 (nnn : Addr12)
  /-- Cxkk: random byte and `kk`. -/
  | rnd (x : Reg) (kk : Byte)
  /-- Dxyn: draw a sprite of `n` rows. -/
  | drw (x y : Reg) (n : Nibble)
  /-- Ex9E: skip if the key is pressed. -/
  | skp (x : Reg)
  /-- ExA1: skip if the key is not pressed. -/
  | sknp (x : Reg)
  /-- Fx07: read the delay timer. -/
  | ldVxDt (x : Reg)
  /-- Fx0A: wait for a key. -/
  | ldVxK (x : Reg)
  /-- Fx15: write the delay timer. -/
  | ldDtVx (x : Reg)
  /-- Fx18: write the sound timer. -/
  | ldStVx (x : Reg)
  /-- Fx1E: add to the index register. -/
  | addI (x : Reg)
  /-- Fx29: glyph address. -/
  | ldF (x : Reg)
  /-- Fx33: store decimal digits. -/
  | ldB (x : Reg)
  /-- Fx55: store `V0` to `Vx`. -/
  | stRegs (x : Reg)
  /-- Fx65: load `V0` to `Vx`. -/
  | ldRegs (x : Reg)
deriving DecidableEq, Repr

/-- Why the decoder reads no instruction from a list of bytes. -/
inductive DecodeError where
  /-- Fewer than two bytes are left; every instruction has two (R45). -/
  | truncated
  /-- The word selects no row of R48: an undefined encoding, which the step executes as a no-op (R50, R64). -/
  | undefinedEncoding (w : Word)
deriving DecidableEq, Repr

end Sys2Proof
end

