-- ==== Sys2Proof/Decode.lean ====
section
/-! DEFINITION. The decoder (R45 to R50) and, after it, the encoder (R53). -/

namespace Sys2Proof

/-- The two bytes of an instruction as one word, the byte at the lower address high (R34, R45). -/
def bigEndian (hi lo : Byte) : Word := hi ++ lo

/-- `op`: bits 15 to 12 (R46). -/
def opField (w : Word) : Nibble := w.extractLsb' 12 4

/-- `x`: bits 11 to 8 (R46). -/
def xField (w : Word) : Reg := w.extractLsb' 8 4

/-- `y`: bits 7 to 4 (R46). -/
def yField (w : Word) : Reg := w.extractLsb' 4 4

/-- `n`: bits 3 to 0 (R46). -/
def nField (w : Word) : Nibble := w.extractLsb' 0 4

/-- `kk`: bits 7 to 0 (R46). -/
def kkField (w : Word) : Byte := w.extractLsb' 0 8

/-- `nnn`: bits 11 to 0 (R46). -/
def nnnField (w : Word) : Addr12 := w.extractLsb' 0 12

/-- Top nibble 0: two words, every one of their digits fixed (R48 rows 1 and 2; R51 for the others). -/
def decodeSystem (w : Word) : Option Instr :=
  if w = 0x00E0#16 then some .cls
  else if w = 0x00EE#16 then some .ret
  else none

/-- Top nibble 8: the low nibble selects the operation (R48 rows 10 to 18). -/
def decodeAlu (x y : Reg) (n : Nibble) : Option Instr :=
  match n.toNat with
  | 0x0 => some (.ldReg x y)
  | 0x1 => some (.orReg x y)
  | 0x2 => some (.andReg x y)
  | 0x3 => some (.xorReg x y)
  | 0x4 => some (.addReg x y)
  | 0x5 => some (.sub x y)
  | 0x6 => some (.shr x y)
  | 0x7 => some (.subn x y)
  | 0xE => some (.shl x y)
  | _ => none

/-- Top nibble E: the low byte selects the operation (R48 rows 24 and 25). -/
def decodeKey (x : Reg) (kk : Byte) : Option Instr :=
  match kk.toNat with
  | 0x9E => some (.skp x)
  | 0xA1 => some (.sknp x)
  | _ => none

/-- Top nibble F: the low byte selects the operation (R48 rows 26 to 34). -/
def decodeMisc (x : Reg) (kk : Byte) : Option Instr :=
  match kk.toNat with
  | 0x07 => some (.ldVxDt x)
  | 0x0A => some (.ldVxK x)
  | 0x15 => some (.ldDtVx x)
  | 0x18 => some (.ldStVx x)
  | 0x1E => some (.addI x)
  | 0x29 => some (.ldF x)
  | 0x33 => some (.ldB x)
  | 0x55 => some (.stRegs x)
  | 0x65 => some (.ldRegs x)
  | _ => none

/-- The instruction a word spells; `none` for an undefined encoding (R48, R50). -/
def decodeWord (w : Word) : Option Instr :=
  match (opField w).toNat with
  | 0x0 => decodeSystem w
  | 0x1 => some (.jp (nnnField w))
  | 0x2 => some (.call (nnnField w))
  | 0x3 => some (.seImm (xField w) (kkField w))
  | 0x4 => some (.sneImm (xField w) (kkField w))
  | 0x5 => if nField w = 0 then some (.seReg (xField w) (yField w)) else none
  | 0x6 => some (.ldImm (xField w) (kkField w))
  | 0x7 => some (.addImm (xField w) (kkField w))
  | 0x8 => decodeAlu (xField w) (yField w) (nField w)
  | 0x9 => if nField w = 0 then some (.sneReg (xField w) (yField w)) else none
  | 0xA => some (.ldI (nnnField w))
  | 0xB => some (.jpV0 (nnnField w))
  | 0xC => some (.rnd (xField w) (kkField w))
  | 0xD => some (.drw (xField w) (yField w) (nField w))
  | 0xE => decodeKey (xField w) (kkField w)
  | 0xF => decodeMisc (xField w) (kkField w)
  | _ => none

/-- Read one instruction from the front of a list of bytes, and give back the bytes after it (R45: always two). -/
def decode : List Byte → Except DecodeError (Instr × List Byte)
  | hi :: lo :: rest =>
    match decodeWord (bigEndian hi lo) with
    | some i => .ok (i, rest)
    | none => .error (.undefinedEncoding (bigEndian hi lo))
  | _ => .error .truncated

/-- The two bytes of a word in the order memory holds them, high byte first (R34, R53). -/
def wordBytes (w : Word) : List Byte := [w.extractLsb' 8 8, w.extractLsb' 0 8]

/-- The word of the opcode table's numbering: the low `nbits` bits of `w`, every bit above them 0. The table numbers the
16-bit instruction word with bit 0 its least significant bit, as R46 does. -/
def tableWord (nbits w : Nat) : Word := BitVec.ofNat 16 (w % 2 ^ nbits)

/-- What the decoder reads from the instruction whose bits are `w` in the table's numbering. -/
def decodeTableWord (nbits w : Nat) : Option Instr :=
  match decode (wordBytes (tableWord nbits w)) with
  | .ok (i, _) => some i
  | .error _ => none

/-! ### The encoder -/

/-- Format NNN of R47: `op * 4096 + nnn` (R53). -/
def formatNNN (op : Nibble) (nnn : Addr12) : Word := op ++ nnn

/-- Format XKK of R47: `op * 4096 + x * 256 + kk` (R53). -/
def formatXKK (op : Nibble) (x : Reg) (kk : Byte) : Word := op ++ (x ++ kk : BitVec 12)

/-- Formats XY and XYN of R47: `op * 4096 + x * 256 + y * 16 + low` (R53). -/
def formatXYN (op : Nibble) (x y : Reg) (low : Nibble) : Word := op ++ (x ++ (y ++ low : BitVec 8) : BitVec 12)

/-- The word of an instruction (R53, with the fixed digits of R48). -/
def encode : Instr → Word
  | .cls => 0x00E0
  | .ret => 0x00EE
  | .jp nnn => formatNNN 0x1 nnn
  | .call nnn => formatNNN 0x2 nnn
  | .seImm x kk => formatXKK 0x3 x kk
  | .sneImm x kk => formatXKK 0x4 x kk
  | .seReg x y => formatXYN 0x5 x y 0x0
  | .ldImm x kk => formatXKK 0x6 x kk
  | .addImm x kk => formatXKK 0x7 x kk
  | .ldReg x y => formatXYN 0x8 x y 0x0
  | .orReg x y => formatXYN 0x8 x y 0x1
  | .andReg x y => formatXYN 0x8 x y 0x2
  | .xorReg x y => formatXYN 0x8 x y 0x3
  | .addReg x y => formatXYN 0x8 x y 0x4
  | .sub x y => formatXYN 0x8 x y 0x5
  | .shr x y => formatXYN 0x8 x y 0x6
  | .subn x y => formatXYN 0x8 x y 0x7
  | .shl x y => formatXYN 0x8 x y 0xE
  | .sneReg x y => formatXYN 0x9 x y 0x0
  | .ldI nnn => formatNNN 0xA nnn
  | .jpV0 nnn => formatNNN 0xB nnn
  | .rnd x kk => formatXKK 0xC x kk
  | .drw x y n => formatXYN 0xD x y n
  | .skp x => formatXKK 0xE x 0x9E
  | .sknp x => formatXKK 0xE x 0xA1
  | .ldVxDt x => formatXKK 0xF x 0x07
  | .ldVxK x => formatXKK 0xF x 0x0A
  | .ldDtVx x => formatXKK 0xF x 0x15
  | .ldStVx x => formatXKK 0xF x 0x18
  | .addI x => formatXKK 0xF x 0x1E
  | .ldF x => formatXKK 0xF x 0x29
  | .ldB x => formatXKK 0xF x 0x33
  | .stRegs x => formatXKK 0xF x 0x55
  | .ldRegs x => formatXKK 0xF x 0x65

/-- The two bytes of an instruction, in the order memory holds them (R53). -/
def encodeBytes (i : Instr) : List Byte := wordBytes (encode i)

end Sys2Proof
end

