-- ==== Sys2Proof/Config.lean ====
section
/-! DEFINITION. The fixed sizes of the hardware (R3), its open parameters (R5) and the one free value (R91). The default VALUES
of the parameters stand in Sys2Proof/Machine/Defaults.lean. -/

namespace Sys2Proof

/-- `MEM_SIZE` of R3. -/
def memSize : Nat := 4096

/-- `PROG_BASE` of R3. -/
def progBase : Nat := 0x200

/-- `MAX_ROM` of R3: `MEM_SIZE - PROG_BASE` = 3584. -/
def maxRom : Nat := memSize - progBase

/-- `EDGE_POLICY` of R5: what happens to a sprite bit past the right or lower edge (R108, R109). -/
inductive EdgePolicy where
  | clip
  | wrap
deriving DecidableEq, Repr

/-- The open parameters of R5, all but `rnd`. They are fixed for the life of a machine and no operation changes them. They
travel in `State.cfg`, because `step` takes the state alone: a statement about every state is one about every parameter
value (DESIGN CHOICE, log 1; safe). -/
structure Config where
  /-- `FONT_BASE`. The 80 font bytes lie inside memory (R31), so it is at most 4096 - 80 (DEDUCED, log 9). -/
  fontBase      : Fin 4017
  /-- `FONT_TABLE`, sixteen glyphs of five bytes (R31). -/
  fontTable     : Vector Byte 80
  edgePolicy    : EdgePolicy
  /-- `KEY_WAIT_CLEARS`: whether Fx0A clears the key it commits (R117). -/
  keyWaitClears : Bool
deriving DecidableEq, Repr

/-- FREE VALUE: the byte drawn by the `k`-th executed Cxkk since the machine was built (R91, R23 (a): any of the 256 values,
a fresh one for each execution). It has no body, so nothing can be proved of its value (DESIGN CHOICE, log 4; safe). -/
opaque Config.rnd : Nat → Byte

end Sys2Proof
end

