-- ==== Sys2Proof/Machine/Defaults.lean ====
section
/-! DEFINITION. The default values of the open parameters (R5), which `State.reset` takes (log 2). -/

namespace Sys2Proof.Machine

/-- Default `FONT_BASE`, 0x050 (R5, R31; spec/90_conflicts.md C1). -/
def defaultFontBase : Fin 4017 := 0x050

/-- Glyphs 0 to 7 of the default `FONT_TABLE` (R31). PRESUMED, log 3 (GK1: general knowledge, not in the document); unsafe. -/
def fontGlyphsLow : List Byte :=
  [0xF0, 0x90, 0x90, 0x90, 0xF0,  0x20, 0x60, 0x20, 0x20, 0x70,
   0xF0, 0x10, 0xF0, 0x80, 0xF0,  0xF0, 0x10, 0xF0, 0x10, 0xF0,
   0x90, 0x90, 0xF0, 0x10, 0x10,  0xF0, 0x80, 0xF0, 0x10, 0xF0,
   0xF0, 0x80, 0xF0, 0x90, 0xF0,  0xF0, 0x10, 0x20, 0x40, 0x40]

/-- Glyphs 8 to F of the default `FONT_TABLE` (R31). PRESUMED, log 3; unsafe. -/
def fontGlyphsHigh : List Byte :=
  [0xF0, 0x90, 0xF0, 0x90, 0xF0,  0xF0, 0x90, 0xF0, 0x10, 0xF0,
   0xF0, 0x90, 0xF0, 0x90, 0x90,  0xE0, 0x90, 0xE0, 0x90, 0xE0,
   0xF0, 0x80, 0x80, 0x80, 0xF0,  0xE0, 0x90, 0x90, 0x90, 0xE0,
   0xF0, 0x80, 0xF0, 0x80, 0xF0,  0xF0, 0x80, 0xF0, 0x80, 0x80]

/-- The default `FONT_TABLE`: glyph `d` is bytes `5 * d` to `5 * d + 4` (R31). -/
def defaultFontTable : Vector Byte 80 :=
  Vector.ofFn fun j => (fontGlyphsLow ++ fontGlyphsHigh).getD j.val 0

/-- The parameters at their defaults (R5): `EDGE_POLICY` clip (R108), `KEY_WAIT_CLEARS` false (R117). -/
def defaultConfig : Config :=
  { fontBase := defaultFontBase, fontTable := defaultFontTable, edgePolicy := .clip, keyWaitClears := false }

end Sys2Proof.Machine
end

