-- ==== Sys2Proof/Machine/State.lean ====
section
/-! DEFINITION. The machine's state as plain data (spec/10_state.md), the errors a step can latch, and the state after reset. -/

namespace Sys2Proof.Machine

/-- An error of `step()`: the two of the document and the two faults the spec adds (R125 to R127, R129). A step that raises one
answers a NEXT state whose latch `err` holds it, because R133 describes that state in full (log 6). -/
inductive StepError where
  /-- A call with sixteen return addresses held; raised by 2nnn (R126). -/
  | stackOverflow
  /-- A return with none held; raised by 00EE (R127). -/
  | stackUnderflow
  /-- An access at an address of 4096 or more; raised by fetch, Dxyn, Fx33, Fx55, Fx65, with the lowest such address (R129 (a)). -/
  | memOutOfBounds (addr : Nat)
  /-- A key index above 15; raised by Ex9E and ExA1, with the value of `V[x]` (R129 (b)). -/
  | keyIndexOutOfRange (v : Byte)
deriving DecidableEq, Repr

/-- The reasons a step stops with no next state. There is NONE: every failure of this machine leaves a state the spec describes
(R133), and is a `StepError` latched in it (log 6). Nobody raises one, which is safe: no claim can rest on a stop. -/
inductive Fault where
deriving DecidableEq, Repr

/-- The reasons an instruction gets no meaning. -/
inductive Refusal where
  /-- Raised by an arm of `exec` whose instruction has no meaning yet; no arm does so now. Safe: such an arm answers no state. -/
  | notModelled (mnemonic : String)
deriving DecidableEq, Repr

/-- Memory: the cells that differ from their reset contents, by rising address. The canonical form is `Memory.wf` in
Sys2Proof/Machine/Ops.lean; what an unlisted address reads as is `resetByte` there (R22, R24, R31; log 11). -/
abbrev Memory := List Host.Cell

/-- The display buffer: row `y`, then column `x` of `disp[y][x]`, true for a pixel that is on (R18; log 12). -/
abbrev Display := Vector (Vector Bool 64) 32

/-- Everything the spec gives the machine (R10 to R22), the configuration it runs with (R5) and the model's own draw counter. -/
structure State where
  /-- The general registers `V[0]` to `V[15]`; `V[15]` is the flag register `VF` (R10, R11). -/
  v        : Vector Byte 16
  /-- The index register `I` (R12). -/
  i        : Word
  /-- The program counter (R13). -/
  pc       : Word
  /-- The call stack's sixteen cells, live or not (R14). -/
  stack    : Vector Word 16
  /-- The stack pointer: how many return addresses are held, 0 to 16 (R14; log 8). -/
  sp       : Fin 17
  /-- The delay timer `DT` (R15). -/
  dt       : Byte
  /-- The sound timer `ST` (R16). -/
  st       : Byte
  /-- The display buffer (R18). -/
  disp     : Display
  /-- The keypad latch, true for a key that is pressed (R19). -/
  key      : Vector Bool 16
  /-- The draw permit (R20). -/
  permit   : Bool
  /-- The error latch (R21): `none`, or the error that ended a step. -/
  err      : Option StepError
  /-- Memory (R22). -/
  mem      : Memory
  /-- The open parameters (R5); no operation changes them (log 1). -/
  cfg      : Config
  /-- THE MODEL'S OWN: how many random bytes have been drawn, so that each Cxkk takes a fresh free value (R91; log 4, 5). -/
  rndDraws : Nat
deriving DecidableEq, Repr

/-- What a meaning answers. -/
abbrev Result := Host.Outcome State Fault Refusal

/-- The reset state (R24, R150), with the parameters at their defaults (R5; log 2). Memory lists nothing: every byte holds its
reset contents. `rndDraws` is the model's own field (DESIGN CHOICE 0, log 5). -/
def State.reset : State :=
  { v := Vector.replicate 16 0
    i := 0
    pc := BitVec.ofNat 16 progBase
    stack := Vector.replicate 16 0
    sp := 0
    dt := 0
    st := 0
    disp := Vector.replicate 32 (Vector.replicate 64 false)
    key := Vector.replicate 16 false
    permit := false
    err := none
    mem := []
    cfg := defaultConfig
    rndDraws := 0 }

end Sys2Proof.Machine
end

