-- ==== Sys2Proof/Machine/Ops.lean ====
section
/-! DEFINITION. The named operations over memory, registers, the stack, the program counter and the error latch, with their
checks: every meaning goes through these. -/

namespace Sys2Proof.Machine

/-! ### Memory as data -/

/-- What an unlisted address reads as: its reset contents, the font at `FONT_BASE` and 0 elsewhere (R24, R31). -/
def resetByte (cfg : Config) (a : Nat) : Byte :=
  if h : cfg.fontBase.val ≤ a ∧ a < cfg.fontBase.val + 80 then
    cfg.fontTable[a - cfg.fontBase.val]'(by omega)
  else 0

/-- The canonical form: addresses strictly rising and below 4096, and no entry equal to what its address reads as unlisted. -/
abbrev Memory.wf (cfg : Config) (m : Memory) : Prop :=
  m.Pairwise (fun c d => c.1 < d.1) ∧ ∀ c ∈ m, c.1 < memSize ∧ c.2 ≠ resetByte cfg c.1

/-- `mem[a]`, raw (spec/00_scope.md section 5). -/
def Memory.read (cfg : Config) : Memory → Nat → Byte
  | [], a => resetByte cfg a
  | c :: m, a => if c.1 = a then c.2 else Memory.read cfg m a

/-- No entry for `a`. -/
def Memory.erase (m : Memory) (a : Nat) : Memory := m.filter (fun c => c.1 != a)

/-- An entry put before the first with a greater address. -/
def Memory.insert : Memory → Nat → Byte → Memory
  | [], a, b => [(a, b)]
  | c :: m, a, b => if a < c.1 then (a, b) :: c :: m else c :: Memory.insert m a b

/-- `mem[a] <- b`, raw, keeping the canonical form. -/
def Memory.write (cfg : Config) (m : Memory) (a : Nat) (b : Byte) : Memory :=
  if b = resetByte cfg a then Memory.erase m a else Memory.insert (Memory.erase m a) a b

/-! ### One field of the state at a time -/

/-- `V[x]` (R10). -/
def State.reg (s : State) (x : Reg) : Byte := s.v[x.toNat]'x.isLt

/-- `V[x] <- b` (R10). -/
def State.setReg (s : State) (x : Reg) (b : Byte) : State := { s with v := s.v.set x.toNat b x.isLt }

/-- `I <- w` (R12). -/
def State.setIndex (s : State) (w : Word) : State := { s with i := w }

/-- `pc <- w` (R13). -/
def State.setPc (s : State) (w : Word) : State := { s with pc := w }

/-- `DT <- b` (R15). -/
def State.setDelay (s : State) (b : Byte) : State := { s with dt := b }

/-- `ST <- b` (R16). -/
def State.setSound (s : State) (b : Byte) : State := { s with st := b }

/-- The whole display buffer (R18). -/
def State.setDisplay (s : State) (d : Display) : State := { s with disp := d }

/-- `key[k] <- b` for `k` in 0 to 15 (R19). -/
def State.setKeyCell (s : State) (k : Nat) (b : Bool) : State := { s with key := s.key.setIfInBounds k b }

/-- `permit <- b` (R20). -/
def State.setPermit (s : State) (b : Bool) : State := { s with permit := b }

/-- `err <- e` (R21). -/
def State.latch (s : State) (e : StepError) : State := { s with err := some e }

/-- One more random byte drawn (the model's own field; log 5). -/
def State.countDraw (s : State) : State := { s with rndDraws := s.rndDraws + 1 }

/-- `mem[a]`, raw. -/
def State.readByte (s : State) (a : Nat) : Byte := Memory.read s.cfg s.mem a

/-- `mem[a] <- b`, raw. -/
def State.writeByte (s : State) (a : Nat) (b : Byte) : State := { s with mem := Memory.write s.cfg s.mem a b }

/-- `V[15]`, the flag register (R11). -/
def flagReg : Reg := 15

/-! ### Raising an error -/

/-- `raise E(info)` (R133): none of the instruction's writes, the error in the latch, `pc` as it stands (advanced for an
execute error, not for a fetch fault). There is no handler and no return (R134). -/
def raise (e : StepError) (s : State) : Result := .next (s.latch e)

/-- Go on with a checked operation's answer, or raise its error from the state `s` before it. -/
def orRaise {α : Type} (r : Except StepError α) (s : State) (k : α → Result) : Result :=
  match r with
  | .ok a => k a
  | .error e => raise e s

/-! ### Checked memory access -/

/-- The lowest out-of-bounds address among the `n` addresses from `base`, if there is one (R32, R33, R37): addresses are
integers and are not wrapped. -/
def firstOutOfBounds (base n : Nat) : Option Nat :=
  if n = 0 ∨ base + n ≤ memSize then none else some (max base memSize)

/-- The `n` bytes from `a`, ascending, raw. -/
def State.readBytes (s : State) (a : Nat) : Nat → List Byte
  | 0 => []
  | n + 1 => s.readByte a :: State.readBytes s (a + 1) n

/-- The bytes stored from `a`, ascending, raw. -/
def State.writeBytes (s : State) (a : Nat) : List Byte → State
  | [] => s
  | b :: bs => State.writeBytes (s.writeByte a b) (a + 1) bs

/-- `MemRead` of `n` bytes (R32): every address is checked before any is read (R37). -/
def State.memRead (s : State) (a n : Nat) : Except StepError (List Byte) :=
  match firstOutOfBounds a n with
  | some bad => .error (.memOutOfBounds bad)
  | none => .ok (s.readBytes a n)

/-- `MemWrite` of the bytes (R32): every address is checked before any is written (R37). Nothing is write-protected (R38). -/
def State.memWrite (s : State) (a : Nat) (bs : List Byte) : Except StepError State :=
  match firstOutOfBounds a bs.length with
  | some bad => .error (.memOutOfBounds bad)
  | none => .ok (s.writeBytes a bs)

/-! ### The call stack -/

/-- Push the program counter (R14, R72). -/
def State.push (s : State) : Except StepError State :=
  if h : s.sp.val < 16 then
    .ok { s with stack := s.stack.set s.sp.val s.pc h, sp := ⟨s.sp.val + 1, by omega⟩ }
  else .error .stackOverflow

/-- Pop the program counter; the popped cell keeps its content (R14, R70). -/
def State.pop (s : State) : Except StepError State :=
  if h : s.sp.val = 0 then .error .stackUnderflow
  else .ok { s with sp := ⟨s.sp.val - 1, by omega⟩, pc := s.stack[s.sp.val - 1]'(by omega) }

/-! ### The program counter and the step cycle -/

/-- The unconditional advance after a successful fetch (R62); arithmetic on `pc` wraps modulo 65536. -/
def State.advance (s : State) : State := s.setPc (s.pc + 2)

/-- `skip`, when the condition holds: 2 more (R78). -/
def State.skipIf (s : State) (c : Bool) : State := if c then s.setPc (s.pc + 2) else s

/-- The wait: `pc <- pc - 2`, so that the next step fetches the same instruction again (R67). -/
def State.rewind (s : State) : State := s.setPc (s.pc - 2)

/-- Fetch: the two bytes at `pc` and `pc + 1`, both checked (R61). -/
def State.fetch (s : State) : Except StepError (List Byte) := s.memRead s.pc.toNat 2

/-- A word that selects no row: nothing beyond the advance already made (R64). -/
def undefinedEncoding (s : State) : Result := .next s

/-- A step with an error latched: nothing at all; the result is the latched error again (R65). -/
def latchedStep (s : State) : Result := .next s

end Sys2Proof.Machine
end

