-- ==== Sys2Proof/Machine/Flags.lean ====
section
/-! DEFINITION. The values the flag register takes (R11), each from the operands as read before any write (R68, R92), and the
write of a result with its flag. -/

namespace Sys2Proof.Machine

/-- A flag as the byte `VF` holds: 1 or 0. -/
def flagByte (b : Bool) : Byte := if b then 1 else 0

/-- 8xy4: the unwrapped sum exceeds 255 (R86, R92). -/
def carry (a b : Byte) : Bool := decide (a.toNat + b.toNat > 255)

/-- 8xy5 and 8xy7: the minuend is greater than or equal to the subtrahend (R87, R89, R92). -/
def noBorrow (minuend subtrahend : Byte) : Bool := decide (minuend.toNat ≥ subtrahend.toNat)

/-- 8xy6: bit 0 of the operand, the bit shifted out (R88). -/
def outRight (b : Byte) : Bool := b.getLsbD 0

/-- 8xyE: bit 7 of the operand, the bit shifted out (R90). -/
def outLeft (b : Byte) : Bool := b.getLsbD 7

/-- `VF <- flag` (R11). -/
def State.setFlag (s : State) (f : Bool) : State := s.setReg flagReg (flagByte f)

/-- The result to `V[x]`, and then the flag to `VF`, so that with `x = 15` the flag remains (R68; the spec's decision D6). -/
def State.setResult (s : State) (x : Reg) (r : Byte) (f : Bool) : State := (s.setReg x r).setFlag f

end Sys2Proof.Machine
end

