-- ==== Sys2Proof/Machine/Alu.lean ====
section
/-! DEFINITION. Register load, arithmetic, logic, shifts and random (spec/42_alu.md): 6xkk, 7xkk, 8xy0 to 8xy7, 8xyE, Cxkk. -/

namespace Sys2Proof.Machine

/-- 6xkk (R80). -/
def execLdImm (x : Reg) (kk : Byte) (s : State) : Result := .next (s.setReg x kk)

/-- 7xkk (R81): wraps modulo 256, no flag. -/
def execAddImm (x : Reg) (kk : Byte) (s : State) : Result := .next (s.setReg x (s.reg x + kk))

/-- 8xy0 (R82): no flag. -/
def execLdReg (x y : Reg) (s : State) : Result := .next (s.setReg x (s.reg y))

/-- 8xy1 (R83): `VF` is 0 afterwards. -/
def execOrReg (x y : Reg) (s : State) : Result := .next (s.setResult x (s.reg x ||| s.reg y) false)

/-- 8xy2 (R84): `VF` is 0 afterwards. -/
def execAndReg (x y : Reg) (s : State) : Result := .next (s.setResult x (s.reg x &&& s.reg y) false)

/-- 8xy3 (R85): `VF` is 0 afterwards. -/
def execXorReg (x y : Reg) (s : State) : Result := .next (s.setResult x (s.reg x ^^^ s.reg y) false)

/-- 8xy4 (R86): `VF` is the carry. -/
def execAddReg (x y : Reg) (s : State) : Result :=
  .next (s.setResult x (s.reg x + s.reg y) (carry (s.reg x) (s.reg y)))

/-- 8xy5 (R87): `VF` is the no-borrow bit of `V[x] - V[y]`. -/
def execSub (x y : Reg) (s : State) : Result :=
  .next (s.setResult x (s.reg x - s.reg y) (noBorrow (s.reg x) (s.reg y)))

/-- 8xy6 (R88): the source is `V[y]`. -/
def execShr (x y : Reg) (s : State) : Result := .next (s.setResult x (s.reg y >>> 1) (outRight (s.reg y)))

/-- 8xy7 (R89): `VF` is the no-borrow bit of `V[y] - V[x]`. -/
def execSubn (x y : Reg) (s : State) : Result :=
  .next (s.setResult x (s.reg y - s.reg x) (noBorrow (s.reg y) (s.reg x)))

/-- 8xyE (R90): the source is `V[y]`. -/
def execShl (x y : Reg) (s : State) : Result := .next (s.setResult x (s.reg y <<< 1) (outLeft (s.reg y)))

/-- Cxkk (R91): a fresh free byte and `kk`; the counter moves on, so that the next draw is another free byte (log 4). -/
def execRnd (x : Reg) (kk : Byte) (s : State) : Result :=
  .next ((s.setReg x (Config.rnd s.rndDraws &&& kk)).countDraw)

end Sys2Proof.Machine
end

