-- ==== Sys2Proof/Machine/Operands.lean ====
section
/-! DEFINITION. The operand forms: register lists, decimal digits, key index, key scan, glyph address, sprite placement. -/

namespace Sys2Proof.Machine

/-- The contents of `V[0]` to `V[x]`, in order: the field `x` is a count (R49, R99). -/
def State.regsUpTo (s : State) (x : Reg) : List Byte := s.v.toList.take (x.toNat + 1)

/-- Load consecutive registers from number `k` on (R100). -/
def State.setRegsFrom (s : State) (k : Nat) : List Byte → State
  | [] => s
  | b :: bs => State.setRegsFrom { s with v := s.v.setIfInBounds k b } (k + 1) bs

/-- `I` past a transfer of `V[0]` to `V[x]`: `(I + x + 1) mod 65536` (R99, R100). -/
def indexPast (i : Word) (x : Reg) : Word := i + BitVec.ofNat 16 (x.toNat + 1)

/-- The three decimal digits of a byte, hundreds first (R34, R98). -/
def decimalDigits (b : Byte) : List Byte :=
  [BitVec.ofNat 8 (b.toNat / 100), BitVec.ofNat 8 (b.toNat / 10 % 10), BitVec.ofNat 8 (b.toNat % 10)]

/-- The key whose index is a register's content; an index above 15 is an error, never a key (R121). -/
def State.keyAt (s : State) (v : Byte) : Except StepError Bool :=
  if h : v.toNat < 16 then .ok (s.key[v.toNat]'h) else .error (.keyIndexOutOfRange v)

/-- The least index, counted from `k`, of a pressed key (R117: the scan goes by increasing index). -/
def scanKeys (k : Nat) : List Bool → Option Nat
  | [] => none
  | b :: bs => if b then some k else scanKeys (k + 1) bs

/-- The lowest-indexed pressed key (R117). -/
def State.lowestKey (s : State) : Option Nat := scanKeys 0 s.key.toList

/-- The address of the glyph of a digit: `(FONT_BASE + 5 * v) mod 65536`, on the whole byte, not masked (R97). -/
def glyphAddress (cfg : Config) (v : Byte) : Word := BitVec.ofNat 16 (cfg.fontBase.val + 5 * v.toNat)

/-- A pixel's place: column 0 to 63, row 0 to 31 (R18). -/
abbrev Pixel := Fin 64 × Fin 32

/-- `target(px, py, col, row)`: the pixel a sprite bit falls on, or none when it is clipped (R108, R109). -/
def target (p : EdgePolicy) (px py col row : Nat) : Option Pixel :=
  match p with
  | .clip =>
    if h : px + col ≤ 63 ∧ py + row ≤ 31 then some (⟨px + col, by omega⟩, ⟨py + row, by omega⟩) else none
  | .wrap => some (⟨(px + col) % 64, by omega⟩, ⟨(py + row) % 32, by omega⟩)

/-- `disp[y][x]` (R18). -/
def pixelOf (d : Display) (p : Pixel) : Bool := (d[p.2.val])[p.1.val]

/-- `disp[y][x] <- b` (R18). -/
def setPixel (d : Display) (p : Pixel) (b : Bool) : Display := d.set p.2.val ((d[p.2.val]).set p.1.val b)

/-- Every pixel off (R24, R105). -/
def blankDisplay : Display := Vector.replicate 32 (Vector.replicate 64 false)

end Sys2Proof.Machine
end

