-- ==== Sys2Proof/Machine/Display.lean ====
section
/-! DEFINITION. The display and the sprite engine (spec/44_display.md): 00E0, Dxyn. -/

namespace Sys2Proof.Machine

/-- What the sprite loop carries: the picture so far, and whether a collision has been seen (R107, R110). -/
structure Canvas where
  disp : Display
  hit  : Bool
deriving DecidableEq, Repr

/-- A sprite bit that is 1 meets its target: a pixel that is on goes off and is a collision, one that is off goes on, and a
clipped bit does nothing (R107, R108). -/
def plot (c : Canvas) : Option Pixel → Canvas
  | none => c
  | some p =>
    if pixelOf c.disp p then ⟨setPixel c.disp p false, true⟩ else ⟨setPixel c.disp p true, c.hit⟩

/-- One sprite row: columns 0 to 7, the most significant bit first (R107). -/
def drawRow (pol : EdgePolicy) (px py row : Nat) (b : Byte) (c : Canvas) : Canvas :=
  (List.range 8).foldl (fun c col => if b.getLsbD (7 - col) then plot c (target pol px py col row) else c) c

/-- The sprite's rows, ascending from `row` (R107). -/
def drawRows (pol : EdgePolicy) (px py : Nat) (row : Nat) (bs : List Byte) (c : Canvas) : Canvas :=
  match bs with
  | [] => c
  | b :: bs => drawRows pol px py (row + 1) bs (drawRow pol px py row b c)

/-- `drawSprite` (R107): the picture after the sprite `bs` is drawn from `(vx mod 64, vy mod 32)`, and the collision. -/
def drawSprite (pol : EdgePolicy) (vx vy : Byte) (bs : List Byte) (d : Display) : Canvas :=
  drawRows pol (vx.toNat % 64) (vy.toNat % 32) 0 bs ⟨d, false⟩

/-- The end of a draw: the picture, the collision in `VF` (R110), the permit consumed (R111). -/
def State.finishDraw (s : State) (c : Canvas) : State := ((s.setFlag c.hit).setDisplay c.disp).setPermit false

/-- 00E0 (R105): needs no permit. -/
def execCls (s : State) : Result := .next (s.setDisplay blankDisplay)

/-- Dxyn (R106 to R111): without the permit it waits by rewinding, and looks at nothing else; with it, all sprite bytes are
checked, then the sprite is drawn. The coordinates are read before `VF` is written (R68). -/
def execDrw (x y : Reg) (n : Nibble) (s : State) : Result :=
  if s.permit then
    orRaise (s.memRead s.i.toNat n.toNat) s fun bs =>
      .next (s.finishDraw (drawSprite s.cfg.edgePolicy (s.reg x) (s.reg y) bs s.disp))
  else .next s.rewind

end Sys2Proof.Machine
end

