-- ==== Sys2Proof/Machine/Flow.lean ====
section
/-! DEFINITION. Control transfer (spec/41_flow.md): 00EE, 1nnn, 2nnn, 3xkk, 4xkk, 5xy0, 9xy0, Bnnn. Every meaning sees `pc`
already advanced by 2 (R62). -/

namespace Sys2Proof.Machine

/-- 00EE (R70). -/
def execRet (s : State) : Result := orRaise s.pop s fun t => .next t

/-- 1nnn (R71). -/
def execJp (nnn : Addr12) (s : State) : Result := .next (s.setPc (zext16 nnn))

/-- 2nnn (R72): the pushed value is the advanced `pc`. -/
def execCall (nnn : Addr12) (s : State) : Result := orRaise s.push s fun t => .next (t.setPc (zext16 nnn))

/-- 3xkk (R73). -/
def execSeImm (x : Reg) (kk : Byte) (s : State) : Result := .next (s.skipIf (s.reg x == kk))

/-- 4xkk (R74). -/
def execSneImm (x : Reg) (kk : Byte) (s : State) : Result := .next (s.skipIf (s.reg x != kk))

/-- 5xy0 (R75). -/
def execSeReg (x y : Reg) (s : State) : Result := .next (s.skipIf (s.reg x == s.reg y))

/-- 9xy0 (R76). -/
def execSneReg (x y : Reg) (s : State) : Result := .next (s.skipIf (s.reg x != s.reg y))

/-- Bnnn (R77): the offset is always `V[0]`, and the sum is not masked. -/
def execJpV0 (nnn : Addr12) (s : State) : Result := .next (s.setPc (zext16 nnn + zext16 (s.reg 0)))

end Sys2Proof.Machine
end

