-- ==== Sys2Proof/Machine/IndexMemory.lean ====
section
/-! DEFINITION. The index register and memory transfer (spec/43_index_memory.md): Annn, Fx1E, Fx29, Fx33, Fx55, Fx65. -/

namespace Sys2Proof.Machine

/-- Annn (R95). -/
def execLdI (nnn : Addr12) (s : State) : Result := .next (s.setIndex (zext16 nnn))

/-- Fx1E (R96): wraps modulo 65536, no flag. -/
def execAddI (x : Reg) (s : State) : Result := .next (s.setIndex (s.i + zext16 (s.reg x)))

/-- Fx29 (R97). -/
def execLdF (x : Reg) (s : State) : Result := .next (s.setIndex (glyphAddress s.cfg (s.reg x)))

/-- Fx33 (R98): `I` is not changed. -/
def execLdB (x : Reg) (s : State) : Result :=
  orRaise (s.memWrite s.i.toNat (decimalDigits (s.reg x))) s fun t => .next t

/-- Fx55 (R99). -/
def execStRegs (x : Reg) (s : State) : Result :=
  orRaise (s.memWrite s.i.toNat (s.regsUpTo x)) s fun t => .next (t.setIndex (indexPast s.i x))

/-- Fx65 (R100). -/
def execLdRegs (x : Reg) (s : State) : Result :=
  orRaise (s.memRead s.i.toNat (x.toNat + 1)) s fun bs =>
    .next ((s.setRegsFrom 0 bs).setIndex (indexPast s.i x))

end Sys2Proof.Machine
end

