-- ==== Sys2Proof/Machine/KeysTimers.lean ====
section
/-! DEFINITION. Keypad and timer instructions (spec/45_keys_timers.md): Ex9E, ExA1, Fx0A, Fx07, Fx15, Fx18. -/

namespace Sys2Proof.Machine

/-- Ex9E (R115). -/
def execSkp (x : Reg) (s : State) : Result := orRaise (s.keyAt (s.reg x)) s fun k => .next (s.skipIf k)

/-- ExA1 (R116). -/
def execSknp (x : Reg) (s : State) : Result := orRaise (s.keyAt (s.reg x)) s fun k => .next (s.skipIf (!k))

/-- Fx0A (R117): waits by rewinding while no key is pressed; else commits the lowest pressed key, and clears it in the latch
only under `KEY_WAIT_CLEARS`. -/
def execLdVxK (x : Reg) (s : State) : Result :=
  match s.lowestKey with
  | none => .next s.rewind
  | some k =>
    let t := s.setReg x (BitVec.ofNat 8 k)
    .next (if s.cfg.keyWaitClears then t.setKeyCell k false else t)

/-- Fx07 (R118). -/
def execLdVxDt (x : Reg) (s : State) : Result := .next (s.setReg x s.dt)

/-- Fx15 (R119). -/
def execLdDtVx (x : Reg) (s : State) : Result := .next (s.setDelay (s.reg x))

/-- Fx18 (R120). -/
def execLdStVx (x : Reg) (s : State) : Result := .next (s.setSound (s.reg x))

end Sys2Proof.Machine
end

