-- ==== Sys2Proof/Machine/Step.lean ====
section
/-! DEFINITION. One step of the core (R60), and the placing of an instruction where the next step fetches. -/

namespace Sys2Proof.Machine

/-- `step()` (R60): with an error latched nothing (R65); else fetch (R61), advance (R62), and execute the instruction (R63) or
nothing for an undefined encoding (R64). The result of R66 is the `err` field of the state it answers. -/
def step (s : State) : Host.Outcome State Fault Refusal :=
  match s.err with
  | some _ => latchedStep s
  | none =>
    match s.fetch with
    | .error e => raise e s
    | .ok bytes =>
      match decode bytes with
      | .ok (i, _) => exec i s.advance
      | .error _ => undefinedEncoding s.advance

/-- The instruction whose bits are `w` (numbered as the opcode table numbers them) stored at `pc` and `pc + 1`, where the next
step fetches, and no error latched, so that the next step does fetch. It stands for the host's load of a program (log 13).
Where `pc` leaves no room for two bytes of memory, nothing is stored. -/
def State.withFetchWord (s : State) (nbits w : Nat) : State :=
  match s.memWrite s.pc.toNat (wordBytes (tableWord nbits w)) with
  | .ok t => { t with err := none }
  | .error _ => s

end Sys2Proof.Machine
end

