-- ==== Sys2Proof/WellFormed.lean ====
section
/-! DEFINITION. The opcode map of R48 as data, and the checks on raw data that can fail: an opcode row, an instruction word, a
program image. A term of `Instr` needs none: its operands have the widths of their fields, so each is well formed. -/

namespace Sys2Proof

/-- One row of the opcode map of R48: its id, and the fixed bits of its pattern. -/
structure OpRow where
  mnemonic : String
  value    : Word
  mask     : Word
deriving DecidableEq, Repr

/-- A row's fixed value lies under its mask. -/
def OpRow.wellFormed (r : OpRow) : Bool := r.value &&& r.mask == r.value

/-- "A word `w` selects row `r` exactly when `(w & mask_r) == match_r`" (R48). -/
def OpRow.selects (r : OpRow) (w : Word) : Bool := w &&& r.mask == r.value

/-- Some word selects both rows. -/
def OpRow.overlaps (r q : OpRow) : Bool := (r.value ^^^ q.value) &&& (r.mask &&& q.mask) == 0

/-- Rows 1 to 10 of R48. -/
def opcodeRowsLow : List OpRow :=
  [⟨"CLS", 0x00E0, 0xFFFF⟩, ⟨"RET", 0x00EE, 0xFFFF⟩, ⟨"JP", 0x1000, 0xF000⟩, ⟨"CALL", 0x2000, 0xF000⟩,
   ⟨"SE_IMM", 0x3000, 0xF000⟩, ⟨"SNE_IMM", 0x4000, 0xF000⟩, ⟨"SE_REG", 0x5000, 0xF00F⟩,
   ⟨"LD_IMM", 0x6000, 0xF000⟩, ⟨"ADD_IMM", 0x7000, 0xF000⟩, ⟨"LD_REG", 0x8000, 0xF00F⟩]

/-- Rows 11 to 23 of R48. -/
def opcodeRowsMid : List OpRow :=
  [⟨"OR", 0x8001, 0xF00F⟩, ⟨"AND", 0x8002, 0xF00F⟩, ⟨"XOR", 0x8003, 0xF00F⟩, ⟨"ADD_REG", 0x8004, 0xF00F⟩,
   ⟨"SUB", 0x8005, 0xF00F⟩, ⟨"SHR", 0x8006, 0xF00F⟩, ⟨"SUBN", 0x8007, 0xF00F⟩, ⟨"SHL", 0x800E, 0xF00F⟩,
   ⟨"SNE_REG", 0x9000, 0xF00F⟩, ⟨"LD_I", 0xA000, 0xF000⟩, ⟨"JP_V0", 0xB000, 0xF000⟩, ⟨"RND", 0xC000, 0xF000⟩,
   ⟨"DRW", 0xD000, 0xF000⟩]

/-- Rows 24 to 34 of R48. -/
def opcodeRowsHigh : List OpRow :=
  [⟨"SKP", 0xE09E, 0xF0FF⟩, ⟨"SKNP", 0xE0A1, 0xF0FF⟩, ⟨"LD_VX_DT", 0xF007, 0xF0FF⟩, ⟨"LD_VX_K", 0xF00A, 0xF0FF⟩,
   ⟨"LD_DT_VX", 0xF015, 0xF0FF⟩, ⟨"LD_ST_VX", 0xF018, 0xF0FF⟩, ⟨"ADD_I", 0xF01E, 0xF0FF⟩, ⟨"LD_F", 0xF029, 0xF0FF⟩,
   ⟨"LD_B", 0xF033, 0xF0FF⟩, ⟨"ST_REGS", 0xF055, 0xF0FF⟩, ⟨"LD_REGS", 0xF065, 0xF0FF⟩]

/-- The opcode map of R48, all 34 rows in its order. -/
def opcodeTable : List OpRow := opcodeRowsLow ++ opcodeRowsMid ++ opcodeRowsHigh

/-- An instruction word is defined when it selects a row; the others are the undefined encodings of R50. -/
def wordDefined (w : Word) : Bool := opcodeTable.any (fun r => r.selects w)

/-- A program image fits: `bytes.length <= 3584` (R43, R151, R152). -/
def imageFits (bytes : List Byte) : Bool := decide (bytes.length ≤ maxRom)

end Sys2Proof
end

