-- ==== Sys2Proof/Machine/HostOps.lean ====
section
/-! DEFINITION. The host's operations (R6, R136 to R142, R150 to R152) and runs, in which they stand between steps in any order. -/

namespace Sys2Proof.Machine

/-- `construct()` (R150): the reset state, with the machine's own parameters. The draw counter goes on, so that a random byte
drawn afterwards has no relation to an earlier one (log 4). -/
def construct (s : State) : State := { State.reset with cfg := s.cfg, rndDraws := s.rndDraws }

/-- The error of `loadProgram`; it is never latched (R128). -/
inductive LoadError where
  /-- The image has more than 3584 bytes (R128, R152). -/
  | romTooLarge
deriving DecidableEq, Repr

/-- `loadProgram(bytes)`: the size check comes first and a failure changes nothing (R152); else everything is reset and the image
is copied to 0x200 on (R151). -/
def loadProgram (bytes : List Byte) (s : State) : State × Option LoadError :=
  if imageFits bytes then ((construct s).writeBytes progBase bytes, none) else (s, some .romTooLarge)

/-- A timer after one tick (R136): it never underflows. -/
def countDown (b : Byte) : Byte := if b = 0 then 0 else b - 1

/-- `tick()` (R136): both timers, nothing else. -/
def tick (s : State) : State := (s.setDelay (countDown s.dt)).setSound (countDown s.st)

/-- `setKey(index, pressed)` (R138): ignored for an index outside 0 to 15. -/
def setKey (index : Int) (pressed : Bool) (s : State) : State :=
  if 0 ≤ index ∧ index ≤ 15 then s.setKeyCell index.toNat pressed else s

/-- `setDrawPermit(ready)` (R139). -/
def setDrawPermit (ready : Bool) (s : State) : State := s.setPermit ready

/-- `snapshotDisplay()` (R140): a pure read. -/
def snapshotDisplay (s : State) : Display := s.disp

/-- `isTonePlaying()` (R17, R137): derived, not stored. -/
def isTonePlaying (s : State) : Bool := s.st != 0

/-- The eight operations of R141, each atomic (R6). -/
inductive HostOp where
  | construct
  | loadProgram (bytes : List Byte)
  | step
  | tick
  | setKey (index : Int) (pressed : Bool)
  | setDrawPermit (ready : Bool)
  | snapshotDisplay
  | isTonePlaying
deriving DecidableEq, Repr

/-- What an operation returns to the host. -/
inductive OpResult where
  /-- Nothing, or `Ok`. -/
  | ok
  /-- `Err` of a step (R66). -/
  | stepError (e : StepError)
  /-- `Err` of a load (R152). -/
  | loadError (e : LoadError)
  /-- The display as it stands (R140). -/
  | display (d : Display)
  /-- The tone flag (R137). -/
  | tone (on : Bool)
  /-- A step refused; no step of this model answers it. -/
  | refused (r : Refusal)
deriving DecidableEq, Repr

/-- The result of the step that led to a state: the error it latched, or a latched one again, else `Ok` (R65, R66). -/
def stepResult (t : State) : OpResult :=
  match t.err with
  | some e => .stepError e
  | none => .ok

/-- `step()` as the host sees it. -/
def performStep (s : State) : State × OpResult :=
  match step s with
  | .next t => (t, stepResult t)
  | .fault f => nomatch f
  | .refused r => (s, .refused r)

/-- One operation: the state after it and what it returns. -/
def perform (op : HostOp) (s : State) : State × OpResult :=
  match op with
  | .construct => (construct s, .ok)
  | .loadProgram bytes =>
    match loadProgram bytes s with
    | (t, none) => (t, .ok)
    | (t, some e) => (t, .loadError e)
  | .step => performStep s
  | .tick => (tick s, .ok)
  | .setKey index pressed => (setKey index pressed s, .ok)
  | .setDrawPermit ready => (setDrawPermit ready s, .ok)
  | .snapshotDisplay => (s, .display (snapshotDisplay s))
  | .isTonePlaying => (s, .tone (isTonePlaying s))

/-- A run: operations one after another (R142: any finite sequence of host operations between any two steps). -/
def runOps (ops : List HostOp) (s : State) : State := ops.foldl (fun s op => (perform op s).1) s

end Sys2Proof.Machine
end

