-- ==== Sys2Proof/Safety.lean ====
section
/-! DEFINITION. The terms claims are stated in: a live machine, a safe run, the invariants, which errors an instruction raises,
which state elements it writes, and which pixels a sprite covers. They are read from the spec's tables, beside the meanings. -/

namespace Sys2Proof.Machine

/-! ### Safe runs -/

/-- No error is latched (R21). -/
abbrev State.live (s : State) : Prop := s.err = none

/-- A run in which `err` stays `none` from first to last: the only runs a claim about a program may speak of (R133). -/
def safeRun : List HostOp → State → Prop
  | [], s => s.live
  | op :: ops, s => s.live ∧ safeRun ops (perform op s).1

/-- Both bytes of a fetch are in memory: `pc < 0xFFF` (R61). -/
abbrev State.fetchable (s : State) : Prop := s.pc.toNat < 0xFFF

/-- The instruction word at `pc` (R34, R45). -/
def State.word (s : State) : Word := bigEndian (s.readByte s.pc.toNat) (s.readByte (s.pc.toNat + 1))

/-! ### Invariants -/

/-- Memory is in its canonical form. -/
abbrev State.memCanonical (s : State) : Prop := Memory.wf s.cfg s.mem

/-- No run takes `pc` past 0x10FE, and every stack cell holds a `pc` as advanced after a fetch (R13: "the largest value any
writer can produce from an in-range fetch is 0x10FE"). -/
def State.pcBounded (s : State) : Prop := s.pc.toNat ≤ 0x10FE ∧ ∀ k : Fin 16, (s.stack[k]).toNat ≤ 0x1000

/-! ### What an instruction raises -/

/-- The error of an access to `n` bytes from `a` (R32, R37). -/
def accessError (a n : Nat) : Option StepError := (firstOutOfBounds a n).map StepError.memOutOfBounds

/-- The error an instruction raises in a state: the table of R125, each instruction with its one check (R132). -/
def errorOf (i : Instr) (s : State) : Option StepError :=
  match i with
  | .ret => if s.sp.val = 0 then some .stackUnderflow else none
  | .call _ => if s.sp.val = 16 then some .stackOverflow else none
  | .skp x | .sknp x => if (s.reg x).toNat > 15 then some (.keyIndexOutOfRange (s.reg x)) else none
  | .drw _ _ n => if s.permit then accessError s.i.toNat n.toNat else none
  | .ldB _ => accessError s.i.toNat 3
  | .stRegs x | .ldRegs x => accessError s.i.toNat (x.toNat + 1)
  | .cls | .jp _ | .seImm _ _ | .sneImm _ _ | .seReg _ _ | .ldImm _ _ | .addImm _ _ | .ldReg _ _ | .orReg _ _ | .andReg _ _
  | .xorReg _ _ | .addReg _ _ | .sub _ _ | .shr _ _ | .subn _ _ | .shl _ _ | .sneReg _ _ | .ldI _ | .jpV0 _ | .rnd _ _
  | .ldVxDt _ | .ldVxK _ | .ldDtVx _ | .ldStVx _ | .addI _ | .ldF _ => none

/-! ### What an instruction writes -/

/-- Whether `V[r]` is among the registers an instruction may write: its destination (R10), and `VF` for the nine instructions of
R11 that define a flag. -/
def writesReg (i : Instr) (r : Reg) : Bool :=
  match i with
  | .ldImm x _ | .addImm x _ | .ldReg x _ | .rnd x _ | .ldVxDt x | .ldVxK x => r == x
  | .orReg x _ | .andReg x _ | .xorReg x _ | .addReg x _ | .sub x _ | .shr x _ | .subn x _ | .shl x _ => r == x || r == flagReg
  | .drw _ _ _ => r == flagReg
  | .ldRegs x => decide (r.toNat ≤ x.toNat)
  | .cls | .ret | .jp _ | .call _ | .seImm _ _ | .sneImm _ _ | .seReg _ _ | .sneReg _ _ | .ldI _ | .jpV0 _ | .skp _ | .sknp _
  | .ldDtVx _ | .ldStVx _ | .addI _ | .ldF _ | .ldB _ | .stRegs _ => false

/-- How many bytes an instruction stores from `I` on (R36). -/
def storeCount (i : Instr) : Nat :=
  match i with
  | .ldB _ => 3
  | .stRegs x => x.toNat + 1
  | .cls | .ret | .jp _ | .call _ | .seImm _ _ | .sneImm _ _ | .seReg _ _ | .sneReg _ _ | .ldImm _ _ | .addImm _ _ | .ldReg _ _
  | .orReg _ _ | .andReg _ _ | .xorReg _ _ | .addReg _ _ | .sub _ _ | .shr _ _ | .subn _ _ | .shl _ _ | .ldI _ | .jpV0 _
  | .rnd _ _ | .drw _ _ _ | .skp _ | .sknp _ | .ldVxDt _ | .ldVxK _ | .ldDtVx _ | .ldStVx _ | .addI _ | .ldF _ | .ldRegs _ => 0

/-- The writers of the index register (spec/10_state.md section 1, R12). -/
def writesIndex (i : Instr) : Bool :=
  match i with
  | .ldI _ | .addI _ | .ldF _ | .stRegs _ | .ldRegs _ => true
  | .cls | .ret | .jp _ | .call _ | .seImm _ _ | .sneImm _ _ | .seReg _ _ | .sneReg _ _ | .ldImm _ _ | .addImm _ _ | .ldReg _ _
  | .orReg _ _ | .andReg _ _ | .xorReg _ _ | .addReg _ _ | .sub _ _ | .shr _ _ | .subn _ _ | .shl _ _ | .jpV0 _ | .rnd _ _
  | .drw _ _ _ | .skp _ | .sknp _ | .ldVxDt _ | .ldVxK _ | .ldDtVx _ | .ldStVx _ | .ldB _ => false

/-! ### The sprite -/

/-- A set bit of the sprite of `n` rows at `I` falls on the pixel `(tx, ty)` when it starts at `(V[x] mod 64, V[y] mod 32)`:
R107 for the start and the bits, R108 for `clip`, R109 for `wrap`. -/
def spriteCovers (s : State) (x y : Reg) (n : Nibble) (tx : Fin 64) (ty : Fin 32) : Prop :=
  ∃ row < n.toNat, ∃ col < 8, (s.readByte (s.i.toNat + row)).getLsbD (7 - col) = true ∧
    match s.cfg.edgePolicy with
    | .clip => tx.val = (s.reg x).toNat % 64 + col ∧ ty.val = (s.reg y).toNat % 32 + row
    | .wrap => tx.val = ((s.reg x).toNat % 64 + col) % 64 ∧ ty.val = ((s.reg y).toNat % 32 + row) % 32

/-- Some pixel the sprite covers is on (R110). -/
def spriteHits (s : State) (x y : Reg) (n : Nibble) : Prop :=
  ∃ tx ty, spriteCovers s x y n tx ty ∧ pixelOf s.disp (tx, ty) = true

/-- The sprite's bytes are all in memory (R107, R37). -/
abbrev spriteInBounds (s : State) (n : Nibble) : Prop := n = 0 ∨ s.i.toNat + n.toNat ≤ memSize

end Sys2Proof.Machine
end

