-- ==== Sys2Proof/Certificates/Slice0/Obligations.lean ====
section
/-! DEFINITION. The statements for the provers, one `Prop` each. A result is stated as: `exec` (or `step`, or a host operation)
answers a next state `t`, what `t` holds, and a frame equation: `t` with the written elements put back is `s`. The spec's own
choices (its decisions D<n>) and the model's (log <n>) are named where a statement rests on one. -/

open Sys2Proof Sys2Proof.Machine

/-! ### Reset and loading -/

/-- R24, field by field, for the model's reset state, whose parameters are the defaults of R5 (log 2) and whose draw counter is
the model's own (log 5). The reset values of `key`, `permit` and `err` are the spec's decisions D9, D10, D19. -/
def Obligations.ResetStateValues : Prop :=
  (∀ r, State.reset.reg r = 0) ∧ State.reset.i = 0 ∧ State.reset.pc = 0x200 ∧ State.reset.sp = 0 ∧
  (∀ k : Fin 16, State.reset.stack[k] = 0) ∧ State.reset.dt = 0 ∧ State.reset.st = 0 ∧
  (∀ p, pixelOf State.reset.disp p = false) ∧ (∀ k : Fin 16, State.reset.key[k] = false) ∧
  State.reset.permit = false ∧ State.reset.err = none ∧
  ∀ a, State.reset.readByte a =
    if h : 0x050 ≤ a ∧ a < 0x0A0 then State.reset.cfg.fontTable[a - 0x050]'(by omega) else 0

/-- R150: `construct()` from any state, under any parameters; it cannot fail. -/
def Obligations.ConstructResetsEverything : Prop :=
  ∀ s, ∃ t, perform .construct s = (t, .ok) ∧
    (∀ r, t.reg r = 0) ∧ t.i = 0 ∧ t.pc = 0x200 ∧ t.sp = 0 ∧ (∀ k : Fin 16, t.stack[k] = 0) ∧ t.dt = 0 ∧ t.st = 0 ∧
    (∀ p, pixelOf t.disp p = false) ∧ (∀ k : Fin 16, t.key[k] = false) ∧ t.permit = false ∧ t.err = none ∧
    (∀ j : Fin 80, t.readByte (s.cfg.fontBase.val + j.val) = s.cfg.fontTable[j]) ∧
    (∀ a, (∀ j : Fin 80, a ≠ s.cfg.fontBase.val + j.val) → t.readByte a = 0) ∧ t.cfg = s.cfg

/-- R151, a load that fits: everything is reset, and every byte of memory is the image's or the reset state's. That the load
resets the whole machine is the spec's decision D19. -/
def Obligations.LoadResetsThenCopies : Prop :=
  ∀ (bytes : List Byte) (s : State), bytes.length ≤ 3584 →
    ∃ t, perform (.loadProgram bytes) s = (t, .ok) ∧
      (∀ j, (h : j < bytes.length) → t.readByte (0x200 + j) = bytes[j]) ∧
      (∀ a, a < 0x200 ∨ 0x200 + bytes.length ≤ a → t.readByte a = (construct s).readByte a) ∧
      Memory.wf t.cfg t.mem ∧ { t with mem := (construct s).mem } = construct s

/-- R152, a load that does not fit: `RomTooLarge`, and nothing at all changes (the spec's decision D18). -/
def Obligations.LoadTooLargeChangesNothing : Prop :=
  ∀ (bytes : List Byte) (s : State), bytes.length > 3584 →
    perform (.loadProgram bytes) s = (s, .loadError .romTooLarge)

/-! ### The step cycle -/

/-- R62: with no error latched and a successful fetch, a step of a word that spells `i` is `exec i` on the state whose `pc` is
advanced by 2, modulo 65536, and nothing else is done around it. -/
def Obligations.StepRunsDecodedInstruction : Prop :=
  ∀ (s : State) (i : Instr), s.live → s.fetchable → decodeWord s.word = some i →
    step s = exec i { s with pc := BitVec.ofNat 16 ((s.pc.toNat + 2) % 65536) }

/-- R64: a word that selects no row of the opcode map only advances `pc`, and the step returns `Ok`. -/
def Obligations.UndefinedEncodingIsNoOp : Prop :=
  ∀ s : State, s.live → s.fetchable → (∀ r ∈ opcodeTable, s.word &&& r.mask ≠ r.value) →
    perform .step s = ({ s with pc := s.pc + 2 }, .ok)

/-- R61: a fetch out of bounds latches `MemOutOfBounds` with the lowest bad address; `pc` is not advanced. That it is a fault is
the spec's decision D4. -/
def Obligations.FetchOutOfBoundsFaults : Prop :=
  ∀ s : State, s.live → 0xFFF ≤ s.pc.toNat →
    perform .step s =
      ({ s with err := some (.memOutOfBounds (if 4096 ≤ s.pc.toNat then s.pc.toNat else s.pc.toNat + 1)) },
       .stepError (.memOutOfBounds (if 4096 ≤ s.pc.toNat then s.pc.toNat else s.pc.toNat + 1)))

/-- R65: with an error latched a step changes nothing and returns the error again (the spec's decision D10). -/
def Obligations.LatchedStepChangesNothing : Prop :=
  ∀ (s : State) (e : StepError), s.err = some e → perform .step s = (s, .stepError e)

/-- Every step answers a next state: no fault and no refusal (R66, R133; the form of the answer is the model's, log 6). -/
def Obligations.EveryStepAnswers : Prop := ∀ s : State, ∃ t, step s = .next t

/-- The waits of R67: a Dxyn without the permit and an Fx0A with no key down leave the whole state as it was, `pc` included (the
spec's decisions D12, D22). -/
def Obligations.WaitingStepChangesNothing : Prop :=
  ∀ s : State, s.live → s.fetchable →
    ((∃ x y n, decodeWord s.word = some (.drw x y n)) ∧ s.permit = false ∨
     (∃ x, decodeWord s.word = some (.ldVxK x)) ∧ ∀ k : Fin 16, s.key[k] = false) →
    perform .step s = (s, .ok)

/-- R41: bytes stored at `pc` are what the next step executes (the spec's decision D20). -/
def Obligations.StoreIsSeenByNextFetch : Prop :=
  ∀ (s t : State) (i : Instr), s.live → s.fetchable → s.memWrite s.pc.toNat (encodeBytes i) = .ok t →
    step t = exec i { t with pc := s.pc + 2 }

/-- A jump to itself is a fixed point of any number of steps (R154, the spec's decision D28; spec/95_test_vectors.md S8). -/
def Obligations.SelfJumpIsFixedPoint : Prop :=
  ∀ (s : State) (nnn : Addr12) (k : Nat), s.live → s.fetchable → decodeWord s.word = some (.jp nnn) →
    s.pc = zext16 nnn → runOps (List.replicate k .step) s = s

/-! ### Encoding -/

/-- No bit of an encoding is dropped: every instruction with every operand comes back from its word. -/
def Obligations.DecodeEncodeAgree : Prop :=
  ∀ (i : Instr) (rest : List Byte), decode (encodeBytes i ++ rest) = .ok (i, rest)

/-- Where a word spells an instruction, it is the only word that does. -/
def Obligations.EncodeDecodeAgree : Prop :=
  ∀ (w : Word) (i : Instr), decodeWord w = some i → encode i = w

/-- R50's table: the words the decoder refuses are exactly the undefined encodings, by top nibble. That a word such as 5xy1 is
one is the spec's decision D14, and so is 0nnn by D29. -/
def Obligations.UndefinedWordsAreTheListedOnes : Prop :=
  ∀ w : Word, decodeWord w = none ↔
    (w.toNat / 4096 = 0x0 ∧ w.toNat ≠ 0x00E0 ∧ w.toNat ≠ 0x00EE) ∨
    (w.toNat / 4096 = 0x5 ∧ w.toNat % 16 ≠ 0) ∨
    (w.toNat / 4096 = 0x8 ∧ w.toNat % 16 ∈ [0x8, 0x9, 0xA, 0xB, 0xC, 0xD, 0xF]) ∨
    (w.toNat / 4096 = 0x9 ∧ w.toNat % 16 ≠ 0) ∨
    (w.toNat / 4096 = 0xE ∧ w.toNat % 256 ∉ [0x9E, 0xA1]) ∨
    (w.toNat / 4096 = 0xF ∧ w.toNat % 256 ∉ [0x07, 0x0A, 0x15, 0x18, 0x1E, 0x29, 0x33, 0x55, 0x65])

/-- Words written out in the spec (R53, and vectors E1 and F1 to K8 of spec/95_test_vectors.md), one for each family at least. -/
def Obligations.WrittenOutWordsDecode : Prop :=
  decodeWord 0x8014 = some (.addReg 0 1) ∧ decodeWord 0x610A = some (.ldImm 1 0x0A) ∧
  decodeWord 0x1200 = some (.jp 0x200) ∧ decodeWord 0xDAB5 = some (.drw 0xA 0xB 5) ∧
  decodeWord 0xFC65 = some (.ldRegs 0xC) ∧ decodeWord 0xE3A1 = some (.sknp 3) ∧
  decodeWord 0xF533 = some (.ldB 5) ∧ decodeWord 0x00EE = some .ret ∧ decodeWord 0xF11E = some (.addI 1) ∧
  decodeWord 0xF30A = some (.ldVxK 3) ∧ decodeWord 0x812E = some (.shl 1 2) ∧ decodeWord 0x5121 = none

/-! ### Control transfer -/

/-- R70, with an address held: `pc` is the newest stack cell and `sp` is one less; the cells keep their content (R14, the spec's
decision D8). -/
def Obligations.ReturnPopsNewestAddress : Prop :=
  ∀ (s : State) (k : Fin 16), s.sp.val = k.val + 1 →
    ∃ t, exec .ret s = .next t ∧ t.pc = s.stack[k] ∧ t.sp.val = k.val ∧ { t with pc := s.pc, sp := s.sp } = s

/-- R72, with room: the cell at `sp` holds the advanced `pc`, `sp` is one more, `pc` is `nnn`, every other cell is as it was (R14,
the spec's decision D8). -/
def Obligations.CallPushesAdvancedPc : Prop :=
  ∀ (nnn : Addr12) (s : State), s.sp.val < 16 →
    ∃ t, exec (.call nnn) s = .next t ∧ t.pc.toNat = nnn.toNat ∧ t.sp.val = s.sp.val + 1 ∧
      (∀ k : Fin 16, t.stack[k] = if k.val = s.sp.val then s.pc else s.stack[k]) ∧
      { t with pc := s.pc, sp := s.sp, stack := s.stack } = s

/-- A call and the return that follows it come back to the instruction after the call, with the stack pointer as before (R62,
R70, R72; the spec's decision D8). -/
def Obligations.ReturnUndoesCall : Prop :=
  ∀ (nnn : Addr12) (s t u : State), s.sp.val < 16 → exec (.call nnn) s = .next t → u.stack = t.stack → u.sp = t.sp →
    ∃ w, exec .ret u = .next w ∧ w.pc = s.pc ∧ w.sp = s.sp

/-- R71 and R95: `pc`, or `I`, takes the 12-bit address zero-extended, and nothing else changes. -/
def Obligations.AddressLoadsZeroExtend : Prop :=
  (∀ (nnn : Addr12) (s : State), ∃ t, exec (.jp nnn) s = .next t ∧ t.pc.toNat = nnn.toNat ∧ { t with pc := s.pc } = s) ∧
  (∀ (nnn : Addr12) (s : State), ∃ t, exec (.ldI nnn) s = .next t ∧ t.i.toNat = nnn.toNat ∧ { t with i := s.i } = s)

/-- R73 to R76 with R78: `pc` moves 2 more exactly when the condition holds, modulo 65536, and nothing else changes. -/
def Obligations.SkipsMovePcOnly : Prop :=
  (∀ x kk (s : State), ∃ t, exec (.seImm x kk) s = .next t ∧ { t with pc := s.pc } = s ∧
    t.pc.toNat = if s.reg x = kk then (s.pc.toNat + 2) % 65536 else s.pc.toNat) ∧
  (∀ x kk (s : State), ∃ t, exec (.sneImm x kk) s = .next t ∧ { t with pc := s.pc } = s ∧
    t.pc.toNat = if s.reg x = kk then s.pc.toNat else (s.pc.toNat + 2) % 65536) ∧
  (∀ x y (s : State), ∃ t, exec (.seReg x y) s = .next t ∧ { t with pc := s.pc } = s ∧
    t.pc.toNat = if s.reg x = s.reg y then (s.pc.toNat + 2) % 65536 else s.pc.toNat) ∧
  (∀ x y (s : State), ∃ t, exec (.sneReg x y) s = .next t ∧ { t with pc := s.pc } = s ∧
    t.pc.toNat = if s.reg x = s.reg y then s.pc.toNat else (s.pc.toNat + 2) % 65536)

/-- R77: the offset is `V[0]` whatever the digits of `nnn`, and the sum is not reduced modulo 4096 (the spec's decision D16). -/
def Obligations.OffsetJumpAddsV0 : Prop :=
  ∀ (nnn : Addr12) (s : State), ∃ t, exec (.jpV0 nnn) s = .next t ∧
    t.pc.toNat = nnn.toNat + (s.reg 0).toNat ∧ { t with pc := s.pc } = s

/-! ### Arithmetic and logic -/

/-- R80 and R82: the destination takes the value and no other register changes, `VF` neither unless it is the destination. -/
def Obligations.LoadsSetOneRegister : Prop :=
  (∀ x kk (s : State), ∃ t, exec (.ldImm x kk) s = .next t ∧
    (∀ r, t.reg r = if r = x then kk else s.reg r) ∧ { t with v := s.v } = s) ∧
  (∀ x y (s : State), ∃ t, exec (.ldReg x y) s = .next t ∧
    (∀ r, t.reg r = if r = x then s.reg y else s.reg r) ∧ { t with v := s.v } = s)

/-- R81: modulo 256, with no flag. -/
def Obligations.AddImmediateWraps : Prop :=
  ∀ x kk (s : State), ∃ t, exec (.addImm x kk) s = .next t ∧
    (t.reg x).toNat = ((s.reg x).toNat + kk.toNat) % 256 ∧ (∀ r, r ≠ x → t.reg r = s.reg r) ∧ { t with v := s.v } = s

/-- R83 to R85: bit by bit, and `VF` ends 0. That the flag is what remains when `x = 15` is the spec's decision D6 (R68). -/
def Obligations.LogicClearsFlag : Prop :=
  (∀ x y (s : State), ∃ t, exec (.orReg x y) s = .next t ∧ t.reg 15 = 0 ∧
    (x ≠ 15 → ∀ j, (t.reg x).getLsbD j = ((s.reg x).getLsbD j || (s.reg y).getLsbD j)) ∧
    (∀ r, r ≠ x → r ≠ 15 → t.reg r = s.reg r) ∧ { t with v := s.v } = s) ∧
  (∀ x y (s : State), ∃ t, exec (.andReg x y) s = .next t ∧ t.reg 15 = 0 ∧
    (x ≠ 15 → ∀ j, (t.reg x).getLsbD j = ((s.reg x).getLsbD j && (s.reg y).getLsbD j)) ∧
    (∀ r, r ≠ x → r ≠ 15 → t.reg r = s.reg r) ∧ { t with v := s.v } = s) ∧
  (∀ x y (s : State), ∃ t, exec (.xorReg x y) s = .next t ∧ t.reg 15 = 0 ∧
    (x ≠ 15 → ∀ j, (t.reg x).getLsbD j = ((s.reg x).getLsbD j ^^ (s.reg y).getLsbD j)) ∧
    (∀ r, r ≠ x → r ≠ 15 → t.reg r = s.reg r) ∧ { t with v := s.v } = s)

/-- R86: the sum modulo 256, and `VF` is 1 exactly when the unwrapped sum exceeds 255, `x = 15` included (the spec's decision
D6 for that form). -/
def Obligations.AddSetsCarry : Prop :=
  ∀ x y (s : State), ∃ t, exec (.addReg x y) s = .next t ∧
    t.reg 15 = (if (s.reg x).toNat + (s.reg y).toNat > 255 then 1 else 0) ∧
    (x ≠ 15 → (t.reg x).toNat = ((s.reg x).toNat + (s.reg y).toNat) % 256) ∧
    (∀ r, r ≠ x → r ≠ 15 → t.reg r = s.reg r) ∧ { t with v := s.v } = s

/-- R87 and R89 over the integers: the difference modulo 256, and `VF` is the no-borrow bit, from the operands before the write.
The 0 of SUBN's flag on a borrow is derived by the spec (R89); the form `x = 15` is its decision D6. -/
def Obligations.SubtractsSetNoBorrow : Prop :=
  (∀ x y (s : State), ∃ t, exec (.sub x y) s = .next t ∧
    t.reg 15 = (if (s.reg x).toNat ≥ (s.reg y).toNat then 1 else 0) ∧
    (x ≠ 15 → ((t.reg x).toNat : Int) = ((s.reg x).toNat - (s.reg y).toNat : Int) % 256) ∧
    (∀ r, r ≠ x → r ≠ 15 → t.reg r = s.reg r) ∧ { t with v := s.v } = s) ∧
  (∀ x y (s : State), ∃ t, exec (.subn x y) s = .next t ∧
    t.reg 15 = (if (s.reg y).toNat ≥ (s.reg x).toNat then 1 else 0) ∧
    (x ≠ 15 → ((t.reg x).toNat : Int) = ((s.reg y).toNat - (s.reg x).toNat : Int) % 256) ∧
    (∀ r, r ≠ x → r ≠ 15 → t.reg r = s.reg r) ∧ { t with v := s.v } = s)

/-- R88 and R90: `V[y]` is shifted one place into `V[x]`, and `VF` is the bit shifted out (the spec's decision D6 for `x = 15`). -/
def Obligations.ShiftsMoveVyIntoVx : Prop :=
  (∀ x y (s : State), ∃ t, exec (.shr x y) s = .next t ∧ (t.reg 15).toNat = (s.reg y).toNat % 2 ∧
    (x ≠ 15 → (t.reg x).toNat = (s.reg y).toNat / 2) ∧
    (∀ r, r ≠ x → r ≠ 15 → t.reg r = s.reg r) ∧ { t with v := s.v } = s) ∧
  (∀ x y (s : State), ∃ t, exec (.shl x y) s = .next t ∧ (t.reg 15).toNat = (s.reg y).toNat / 128 ∧
    (x ≠ 15 → (t.reg x).toNat = (s.reg y).toNat * 2 % 256) ∧
    (∀ r, r ≠ x → r ≠ 15 → t.reg r = s.reg r) ∧ { t with v := s.v } = s)

/-- R91: `V[x]` is the free byte of this draw and `kk`, so no bit outside `kk` is set, whatever the byte; the next draw is a fresh
one (the spec's decision D11; the form of the free value is the model's, log 4). -/
def Obligations.RandomByteIsMasked : Prop :=
  ∀ x kk (s : State), ∃ t, exec (.rnd x kk) s = .next t ∧ t.reg x = Config.rnd s.rndDraws &&& kk ∧
    t.reg x &&& ~~~kk = 0 ∧ t.rndDraws = s.rndDraws + 1 ∧ (∀ r, r ≠ x → t.reg r = s.reg r) ∧
    { t with v := s.v, rndDraws := s.rndDraws } = s

/-! ### Index register and memory -/

/-- R96 and R97: `I` alone changes, `VF` in particular does not. The sum wraps modulo 65536 (the spec's decision D16); the glyph
address takes the whole of `V[x]` (its decision D15) and never wraps, since the font lies in memory (log 9). -/
def Obligations.IndexArithmetic : Prop :=
  (∀ x (s : State), ∃ t, exec (.addI x) s = .next t ∧
    t.i.toNat = (s.i.toNat + (s.reg x).toNat) % 65536 ∧ { t with i := s.i } = s) ∧
  (∀ x (s : State), ∃ t, exec (.ldF x) s = .next t ∧
    t.i.toNat = s.cfg.fontBase.val + 5 * (s.reg x).toNat ∧ { t with i := s.i } = s)

/-- R98, in bounds: three digits of 0 to 9 that spell `V[x]`, at `I`, `I + 1`, `I + 2`; every other byte, and all else, as before. -/
def Obligations.DecimalStoreWritesThreeDigits : Prop :=
  ∀ x (s : State), s.i.toNat + 2 < 4096 →
    ∃ t, exec (.ldB x) s = .next t ∧
      (t.readByte s.i.toNat).toNat * 100 + (t.readByte (s.i.toNat + 1)).toNat * 10 + (t.readByte (s.i.toNat + 2)).toNat
        = (s.reg x).toNat ∧
      (t.readByte s.i.toNat).toNat ≤ 9 ∧ (t.readByte (s.i.toNat + 1)).toNat ≤ 9 ∧ (t.readByte (s.i.toNat + 2)).toNat ≤ 9 ∧
      (∀ a, a < s.i.toNat ∨ s.i.toNat + 2 < a → t.readByte a = s.readByte a) ∧ { t with mem := s.mem } = s

/-- R99, in bounds: `V[0]` to `V[x]` at `I` to `I + x`, `I` past them modulo 65536; every other byte, and all else, as before. -/
def Obligations.StoreRegistersWritesRun : Prop :=
  ∀ x (s : State), s.i.toNat + x.toNat < 4096 →
    ∃ t, exec (.stRegs x) s = .next t ∧
      (∀ r : Reg, r.toNat ≤ x.toNat → t.readByte (s.i.toNat + r.toNat) = s.reg r) ∧
      (∀ a, a < s.i.toNat ∨ s.i.toNat + x.toNat < a → t.readByte a = s.readByte a) ∧
      t.i.toNat = (s.i.toNat + x.toNat + 1) % 65536 ∧ { t with mem := s.mem, i := s.i } = s

/-- R100, in bounds: `V[0]` to `V[x]` from `I` to `I + x`, the others kept, `I` past them; memory, and all else, as before. -/
def Obligations.LoadRegistersReadsRun : Prop :=
  ∀ x (s : State), s.i.toNat + x.toNat < 4096 →
    ∃ t, exec (.ldRegs x) s = .next t ∧
      (∀ r : Reg, t.reg r = if r.toNat ≤ x.toNat then s.readByte (s.i.toNat + r.toNat) else s.reg r) ∧
      t.i.toNat = (s.i.toNat + x.toNat + 1) % 65536 ∧ { t with v := s.v, i := s.i } = s

/-- R99 then R100 with `I` put back: what was stored is loaded again, into a machine whose registers have meanwhile changed. -/
def Obligations.StoreThenLoadRestoresRegisters : Prop :=
  ∀ x (s t u : State), s.i.toNat + x.toNat < 4096 → exec (.stRegs x) s = .next t → u.i = s.i → u.mem = t.mem → u.cfg = s.cfg →
    ∃ w, exec (.ldRegs x) u = .next w ∧ ∀ r : Reg, r.toNat ≤ x.toNat → w.reg r = s.reg r

/-- R37 with R98, R99, R100, R107: an access with an address out of bounds latches `MemOutOfBounds` of the LOWEST such address and
does nothing else, whatever part of it is in bounds (the spec's decisions D4, D21). -/
def Obligations.OutOfBoundsAccessRaises : Prop :=
  ∀ (s : State) (bad n : Nat), s.i.toNat ≤ bad → bad < s.i.toNat + n → 4096 ≤ bad → (∀ a, s.i.toNat ≤ a → a < bad → a < 4096) →
    (n = 3 → ∀ x, exec (.ldB x) s = .next { s with err := some (.memOutOfBounds bad) }) ∧
    (∀ x : Reg, n = x.toNat + 1 → exec (.stRegs x) s = .next { s with err := some (.memOutOfBounds bad) }) ∧
    (∀ x : Reg, n = x.toNat + 1 → exec (.ldRegs x) s = .next { s with err := some (.memOutOfBounds bad) }) ∧
    (∀ x y (m : Nibble), n = m.toNat → s.permit = true →
      exec (.drw x y m) s = .next { s with err := some (.memOutOfBounds bad) })

/-- The canonical form is one form: two canonical memories with the same bytes are the same data (the model's representation,
log 11). -/
def Obligations.CanonicalMemoryIsUnique : Prop :=
  ∀ (c : Config) (m m' : Memory), Memory.wf c m → Memory.wf c m' → (∀ a, Memory.read c m a = Memory.read c m' a) → m = m'

/-! ### Display -/

/-- R105: every pixel off, whatever the permit, and nothing else changes. -/
def Obligations.ClearTurnsPixelsOff : Prop :=
  ∀ s : State, ∃ t, exec .cls s = .next t ∧ (∀ p, pixelOf t.disp p = false) ∧ { t with disp := s.disp } = s

/-- R107 to R111, as a function of the old picture: a pixel changes exactly when a set sprite bit falls on it, under either edge
policy; `VF` is 1 exactly when one that changes was on; the permit is consumed; no other register, no byte of memory, and nothing
else changes. The coordinates are `V[x]` and `V[y]` as read first (the spec's decision D7); a draw that changes nothing consumes
the permit too (D22); the edge policy is its parameter (D3). -/
def Obligations.DrawTogglesCoveredPixels : Prop :=
  ∀ x y n (s : State), s.permit = true → spriteInBounds s n →
    ∃ t, exec (.drw x y n) s = .next t ∧
      (∀ tx ty, pixelOf t.disp (tx, ty) = true ↔ ¬ (pixelOf s.disp (tx, ty) = true ↔ spriteCovers s x y n tx ty)) ∧
      (spriteHits s x y n → t.reg 15 = 1) ∧ (¬ spriteHits s x y n → t.reg 15 = 0) ∧
      (∀ r, r ≠ 15 → t.reg r = s.reg r) ∧ t.permit = false ∧
      { t with v := s.v, disp := s.disp, permit := s.permit } = s

/-- R112: the same sprite drawn again at the same place, with the display untouched between and a permit for each draw, gives the
first picture back; and if the sprite covers a pixel at all, one of the two draws reports a collision. Derived by the spec. -/
def Obligations.DrawingTwiceCancels : Prop :=
  ∀ x y n (s t u : State), s.permit = true → spriteInBounds s n → exec (.drw x y n) s = .next t →
    u.permit = true → u.cfg = s.cfg → u.i = s.i → u.reg x = s.reg x → u.reg y = s.reg y →
    (∀ k < n.toNat, u.readByte (s.i.toNat + k) = s.readByte (s.i.toNat + k)) → u.disp = t.disp →
    ∃ w, exec (.drw x y n) u = .next w ∧ w.disp = s.disp ∧
      ((∃ tx ty, spriteCovers s x y n tx ty) → t.reg 15 = 1 ∨ w.reg 15 = 1)

/-! ### Keypad and timers -/

/-- R115 and R116, with the key index in range: the skip follows the latch, which does not change. -/
def Obligations.KeySkipsFollowLatch : Prop :=
  (∀ x (s : State) (k : Fin 16), (s.reg x).toNat = k.val →
    ∃ t, exec (.skp x) s = .next t ∧ { t with pc := s.pc } = s ∧
      t.pc.toNat = if s.key[k] then (s.pc.toNat + 2) % 65536 else s.pc.toNat) ∧
  (∀ x (s : State) (k : Fin 16), (s.reg x).toNat = k.val →
    ∃ t, exec (.sknp x) s = .next t ∧ { t with pc := s.pc } = s ∧
      t.pc.toNat = if s.key[k] then s.pc.toNat else (s.pc.toNat + 2) % 65536)

/-- R117, with a key down: the lowest pressed key's index goes to `V[x]`, and its latch cell is cleared exactly under
`KEY_WAIT_CLEARS` (the spec's decision D13); nothing else changes. -/
def Obligations.KeyWaitCommitsLowestKey : Prop :=
  ∀ x (s : State) (k : Fin 16), s.key[k] = true → (∀ j : Fin 16, j < k → s.key[j] = false) →
    ∃ t, exec (.ldVxK x) s = .next t ∧ (t.reg x).toNat = k.val ∧ (∀ r, r ≠ x → t.reg r = s.reg r) ∧
      (∀ j : Fin 16, t.key[j] = if s.cfg.keyWaitClears ∧ j = k then false else s.key[j]) ∧
      { t with v := s.v, key := s.key } = s

/-- R118, R119, R120: the timers are read and written as they stand, the tone output follows the sound timer at once, and nothing
else changes. -/
def Obligations.TimerTransfers : Prop :=
  (∀ x (s : State), ∃ t, exec (.ldVxDt x) s = .next t ∧
    (∀ r, t.reg r = if r = x then s.dt else s.reg r) ∧ { t with v := s.v } = s) ∧
  (∀ x (s : State), ∃ t, exec (.ldDtVx x) s = .next t ∧ t.dt = s.reg x ∧ { t with dt := s.dt } = s) ∧
  (∀ x (s : State), ∃ t, exec (.ldStVx x) s = .next t ∧ t.st = s.reg x ∧ (isTonePlaying t = true ↔ s.reg x ≠ 0) ∧
    { t with st := s.st } = s)

/-- R126, R127, R121: a call with 16 addresses held, a return with none, and a key index above 15 latch their error and do nothing
else (the latch is the spec's decision D10, the key fault its decision D5). -/
def Obligations.StackAndKeyChecksRaise : Prop :=
  (∀ (nnn : Addr12) (s : State), s.sp.val = 16 → exec (.call nnn) s = .next { s with err := some .stackOverflow }) ∧
  (∀ s : State, s.sp.val = 0 → exec .ret s = .next { s with err := some .stackUnderflow }) ∧
  (∀ x (s : State), (s.reg x).toNat > 15 →
    exec (.skp x) s = .next { s with err := some (.keyIndexOutOfRange (s.reg x)) } ∧
    exec (.sknp x) s = .next { s with err := some (.keyIndexOutOfRange (s.reg x)) })

/-- R106 and R117 with R67: a Dxyn without the permit, an out-of-bounds `I` included, and an Fx0A with no key down only take `pc` back
by 2, modulo 65536 (the spec's decisions D12, D22). -/
def Obligations.WaitsOnlyRewindPc : Prop :=
  (∀ x y n (s : State), s.permit = false →
    ∃ t, exec (.drw x y n) s = .next t ∧ t.pc.toNat = (s.pc.toNat + 65534) % 65536 ∧ { t with pc := s.pc } = s) ∧
  (∀ x (s : State), (∀ k : Fin 16, s.key[k] = false) →
    ∃ t, exec (.ldVxK x) s = .next t ∧ t.pc.toNat = (s.pc.toNat + 65534) % 65536 ∧ { t with pc := s.pc } = s)

/-! ### Host operations -/

/-- R136: each timer loses 1 if it is greater than 0, and nothing else changes, the permit and `err` included; after `k` ticks it
has lost `k`, never going below 0, and the tone is still on exactly when `ST` was above `k` (spec/90_conflicts.md C10). -/
def Obligations.TicksCountTimersDown : Prop :=
  ∀ (k : Nat) (s : State), ∃ t, runOps (List.replicate k .tick) s = t ∧
    t.dt.toNat = s.dt.toNat - k ∧ t.st.toNat = s.st.toNat - k ∧ (isTonePlaying t = true ↔ k < s.st.toNat) ∧
    { t with dt := s.dt, st := s.st } = s

/-- R137 and R140: the two reads give the tone flag and the display as they stand, and change nothing. -/
def Obligations.HostReadsArePure : Prop :=
  ∀ s : State, perform .isTonePlaying s = (s, .tone (decide (s.st.toNat ≠ 0))) ∧
    ∃ d, perform .snapshotDisplay s = (s, .display d) ∧ ∀ p, pixelOf d p = pixelOf s.disp p

/-- R138 and R139: `setKey` sets one level, or does nothing for an index outside 0 to 15; `setDrawPermit` sets the permit, which is
one bit and no counter. -/
def Obligations.HostSettersSetOneBit : Prop :=
  (∀ (index : Int) (pressed : Bool) (s : State), ∃ t, perform (.setKey index pressed) s = (t, .ok) ∧
    (∀ j : Fin 16, t.key[j] = if (j.val : Int) = index then pressed else s.key[j]) ∧ { t with key := s.key } = s) ∧
  (∀ (ready : Bool) (s : State), ∃ t, perform (.setDrawPermit ready) s = (t, .ok) ∧
    t.permit = ready ∧ { t with permit := s.permit } = s)

/-! ### Whole-machine rules -/

/-- R133: an instruction that raises an error has done nothing but raise it (the spec's decision D10 for the latch). -/
def Obligations.ErrorsArePrecise : Prop :=
  ∀ (i : Instr) (s t : State) (e : StepError), s.live → exec i s = .next t → t.err = some e → t = { s with err := some e }

/-- The table of R125 with R132: which error, if any, an instruction raises in a state, and that no other is (the spec's
decisions D4, D5, D24). -/
def Obligations.ErrorsAreTheListedOnes : Prop :=
  ∀ (i : Instr) (s t : State), s.live → exec i s = .next t → t.err = errorOf i s

/-- R10 and R11 over all instructions: a register that is neither a destination of the instruction, nor `VF` for one of the nine
that define a flag, keeps its value. -/
def Obligations.OtherRegistersUnchanged : Prop :=
  ∀ (i : Instr) (s t : State) (r : Reg), exec i s = .next t → writesReg i r = false → t.reg r = s.reg r

/-- R36 and R38 over all instructions: every byte outside the run of `storeCount i` bytes from `I` keeps its value; an instruction
other than Fx33 and Fx55 stores none. -/
def Obligations.OtherBytesUnchanged : Prop :=
  ∀ (i : Instr) (s t : State) (a : Nat), exec i s = .next t → (a < s.i.toNat ∨ s.i.toNat + storeCount i ≤ a) →
    t.readByte a = s.readByte a

/-- The summary table of spec/10_state.md section 1 (R12, R14, R15, R16, R18): each of these elements is written by no instruction
but the ones listed for it. -/
def Obligations.OnlyListedInstructionsWrite : Prop :=
  ∀ (i : Instr) (s t : State), exec i s = .next t →
    (writesIndex i = false → t.i = s.i) ∧
    ((∀ nnn, i ≠ .call nnn) → t.stack = s.stack) ∧
    ((∀ nnn, i ≠ .call nnn) → i ≠ .ret → t.sp = s.sp) ∧
    ((∀ x, i ≠ .ldDtVx x) → t.dt = s.dt) ∧
    ((∀ x, i ≠ .ldStVx x) → t.st = s.st) ∧
    (i ≠ .cls → (∀ x y n, i ≠ .drw x y n) → t.disp = s.disp) ∧
    ((∀ x kk, i ≠ .rnd x kk) → t.rndDraws = s.rndDraws)

/-- R135, R19, R20: no step grants a draw permit, presses a key, releases one unless `KEY_WAIT_CLEARS` holds (decision D13), or
changes the configuration. -/
def Obligations.StepKeepsWhatTheHostOwns : Prop :=
  ∀ s t : State, step s = .next t →
    (t.permit = true → s.permit = true) ∧ (∀ k : Fin 16, t.key[k] = true → s.key[k] = true) ∧
    (s.cfg.keyWaitClears = false → t.key = s.key) ∧ t.cfg = s.cfg

/-- R155 with R106, R111: without the permit no operation but `setDrawPermit(true)` brings it, and until then no step but a 00E0
changes a pixel (nor does any host operation but a construct or a load). -/
def Obligations.NoDrawWithoutPermit : Prop :=
  ∀ (op : HostOp) (s : State), s.permit = false → op ≠ .setDrawPermit true →
    (perform op s).1.permit = false ∧
    (op ≠ .construct → (∀ bytes, op ≠ .loadProgram bytes) → (op = .step → decodeWord s.word ≠ some .cls) →
      (perform op s).1.disp = s.disp)

/-- R134: once an error is latched, no operation but `construct` and a successful load takes it away (the spec's decision D10). -/
def Obligations.LatchedErrorStays : Prop :=
  ∀ (op : HostOp) (s : State) (e : StepError), s.err = some e → op ≠ .construct →
    (∀ bytes, op = .loadProgram bytes → bytes.length > 3584) → (perform op s).1.err = some e

/-- Memory stays in its canonical form under every step, from any state that has it (the model's representation, log 11). -/
def Obligations.StepKeepsMemoryCanonical : Prop :=
  ∀ s t : State, s.memCanonical → step s = .next t → t.memCanonical

/-- R13: no step takes `pc` past 0x10FE or a stack cell past 0x1000, so the wrap of `pc` is never reached. Derived by the spec. -/
def Obligations.StepKeepsPcBounded : Prop :=
  ∀ s t : State, s.pcBounded → step s = .next t → t.pcBounded

/-- Both invariants hold in the reset state. -/
def Obligations.ResetMeetsInvariants : Prop := State.reset.memCanonical ∧ State.reset.pcBounded

/-- R142: both invariants hold after every run of host operations and steps from reset, in any interleaving (the spec's decision
D23). -/
def Obligations.EveryRunKeepsInvariants : Prop :=
  ∀ ops : List HostOp, (runOps ops State.reset).memCanonical ∧ (runOps ops State.reset).pcBounded

/-- R142 (b) over runs: with no Fx15 or Fx18 executed, the timers never increase, whatever the host does between the steps. A load
or a construct zeroes them. -/
def Obligations.TimersNeverRiseByThemselves : Prop :=
  ∀ (op : HostOp) (s : State), (op = .step → ∀ x, decodeWord s.word ≠ some (.ldDtVx x) ∧ decodeWord s.word ≠ some (.ldStVx x)) →
    (perform op s).1.dt.toNat ≤ s.dt.toNat ∧ (perform op s).1.st.toNat ≤ s.st.toNat
end

