-- ==== Sys2Proof/Laws/Decode.lean ====
section
/-! SUPPORT. The fields of a word built from fields, and a word as its two bytes. -/

namespace Sys2Proof

/-- The low part of a concatenation. -/
theorem extractLow {v w : Nat} (a : BitVec v) (b : BitVec w) : (a ++ b).extractLsb' 0 w = b := by
  apply BitVec.eq_of_getLsbD_eq
  intro i hi
  simp [BitVec.getLsbD_append, hi]

/-- The high part of a concatenation. -/
theorem extractHigh {v w : Nat} (a : BitVec v) (b : BitVec w) : (a ++ b).extractLsb' w v = a := by
  apply BitVec.eq_of_getLsbD_eq
  intro i hi
  simp [BitVec.getLsbD_append, hi]

/-- A field of the low part of a concatenation. -/
theorem extractInLow {v w : Nat} (a : BitVec v) (b : BitVec w) (s n : Nat) (h : s + n ≤ w) :
    (a ++ b).extractLsb' s n = b.extractLsb' s n := by
  apply BitVec.eq_of_getLsbD_eq
  intro i hi
  have : s + i < w := by omega
  simp [BitVec.getLsbD_append, hi, this]

/-- A word is its high part and its low part. -/
theorem append_extract (w : Word) : (w.extractLsb' 8 8 ++ w.extractLsb' 0 8 : Word) = w := by
  apply BitVec.eq_of_getLsbD_eq
  intro i hi
  simp only [BitVec.getLsbD_append, BitVec.getLsbD_extractLsb']
  split
  · next h => simp [h]
  · next h =>
    have h1 : i - 8 < 8 := by omega
    have h2 : 8 + (i - 8) = i := by omega
    simp [h1, h2]

/-- Fetching the two bytes of a word big-endian gives the word back (R34). -/
theorem bigEndian_wordBytes (w : Word) : bigEndian (w.extractLsb' 8 8) (w.extractLsb' 0 8) = w := append_extract w

/-- Decoding the bytes of a word is decoding the word, with the bytes after them left over. -/
theorem decode_wordBytes (w : Word) (rest : List Byte) :
    decode (wordBytes w ++ rest) =
      match decodeWord w with
      | some i => .ok (i, rest)
      | none => .error (.undefinedEncoding w) := by
  cases h : decodeWord w <;> simp [wordBytes, decode, bigEndian_wordBytes, h]

@[simp] theorem opField_formatNNN (op : Nibble) (nnn : Addr12) : opField (formatNNN op nnn) = op := extractHigh op nnn

@[simp] theorem nnnField_formatNNN (op : Nibble) (nnn : Addr12) : nnnField (formatNNN op nnn) = nnn := extractLow op nnn

@[simp] theorem opField_formatXKK (op : Nibble) (x : Reg) (kk : Byte) : opField (formatXKK op x kk) = op := extractHigh _ _

@[simp] theorem xField_formatXKK (op : Nibble) (x : Reg) (kk : Byte) : xField (formatXKK op x kk) = x :=
  (extractInLow op (x ++ kk : BitVec 12) 8 4 (by omega)).trans (extractHigh x kk)

@[simp] theorem kkField_formatXKK (op : Nibble) (x : Reg) (kk : Byte) : kkField (formatXKK op x kk) = kk :=
  (extractInLow op (x ++ kk : BitVec 12) 0 8 (by omega)).trans (extractLow x kk)

@[simp] theorem opField_formatXYN (op : Nibble) (x y : Reg) (n : Nibble) : opField (formatXYN op x y n) = op := extractHigh _ _

@[simp] theorem xField_formatXYN (op : Nibble) (x y : Reg) (n : Nibble) : xField (formatXYN op x y n) = x :=
  (extractInLow op (x ++ (y ++ n : BitVec 8) : BitVec 12) 8 4 (by omega)).trans (extractHigh x _)

@[simp] theorem yField_formatXYN (op : Nibble) (x y : Reg) (n : Nibble) : yField (formatXYN op x y n) = y :=
  ((extractInLow op (x ++ (y ++ n : BitVec 8) : BitVec 12) 4 4 (by omega)).trans
    (extractInLow x (y ++ n : BitVec 8) 4 4 (by omega))).trans (extractHigh y n)

@[simp] theorem nField_formatXYN (op : Nibble) (x y : Reg) (n : Nibble) : nField (formatXYN op x y n) = n :=
  ((extractInLow op (x ++ (y ++ n : BitVec 8) : BitVec 12) 0 4 (by omega)).trans
    (extractInLow x (y ++ n : BitVec 8) 0 4 (by omega))).trans (extractLow y n)

/-- A word is its top nibble and its `nnn`. -/
theorem formatNNN_fields (w : Word) : formatNNN (opField w) (nnnField w) = w := by
  apply BitVec.eq_of_getLsbD_eq
  intro i hi
  simp only [formatNNN, opField, nnnField, BitVec.getLsbD_append, BitVec.getLsbD_extractLsb']
  split
  · next h => simp [h]
  · next h =>
    have h1 : i - 12 < 4 := by omega
    have h2 : 12 + (i - 12) = i := by omega
    simp [h1, h2]

/-- The `nnn` of a word is its `x` and its `kk`. -/
theorem nnnField_eq (w : Word) : nnnField w = (xField w ++ kkField w : BitVec 12) := by
  apply BitVec.eq_of_getLsbD_eq
  intro i hi
  simp only [nnnField, xField, kkField, BitVec.getLsbD_append, BitVec.getLsbD_extractLsb']
  split
  · next h => simp [h, hi]
  · next h =>
    have h1 : i - 8 < 4 := by omega
    have h2 : 8 + (i - 8) = i := by omega
    simp [h1, h2, hi]

/-- The `kk` of a word is its `y` and its `n`. -/
theorem kkField_eq (w : Word) : kkField w = (yField w ++ nField w : BitVec 8) := by
  apply BitVec.eq_of_getLsbD_eq
  intro i hi
  simp only [kkField, yField, nField, BitVec.getLsbD_append, BitVec.getLsbD_extractLsb']
  split
  · next h => simp [h, hi]
  · next h =>
    have h1 : i - 4 < 4 := by omega
    have h2 : 4 + (i - 4) = i := by omega
    simp [h1, h2, hi]

/-- A word is its top nibble, its `x` and its `kk`. -/
theorem formatXKK_fields (w : Word) : formatXKK (opField w) (xField w) (kkField w) = w := by
  rw [formatXKK, ← nnnField_eq]
  exact formatNNN_fields w

/-- A word is its four nibbles. -/
theorem formatXYN_fields (w : Word) : formatXYN (opField w) (xField w) (yField w) (nField w) = w := by
  rw [formatXYN, ← kkField_eq]
  exact formatXKK_fields w

/-- The fields as numbers (R46, R53). -/
theorem opField_toNat (w : Word) : (opField w).toNat = w.toNat / 4096 := by
  have := w.isLt
  simp [opField, Nat.shiftRight_eq_div_pow]
  omega

theorem nField_toNat (w : Word) : (nField w).toNat = w.toNat % 16 := by simp [nField]

theorem kkField_toNat (w : Word) : (kkField w).toNat = w.toNat % 256 := by simp [kkField]

/-! ### Masks -/

theorem formatNNN_mask (op : Nibble) (nnn : Addr12) : formatNNN op nnn &&& 0xF000#16 = formatNNN op 0 := by
  apply BitVec.eq_of_getLsbD_eq
  intro i hi
  rw [show (0xF000#16) = formatNNN 0xF 0 from rfl]
  simp only [formatNNN, BitVec.getLsbD_and, BitVec.getLsbD_append]
  split
  · simp
  · have h : i - 12 < 4 := by omega
    interval_cases i - 12 <;> simp

theorem formatXKK_mask (op : Nibble) (x : Reg) (kk : Byte) : formatXKK op x kk &&& 0xF000#16 = formatNNN op 0 :=
  formatNNN_mask op (x ++ kk : BitVec 12)

theorem formatXYN_mask (op : Nibble) (x y : Reg) (n : Nibble) : formatXYN op x y n &&& 0xF000#16 = formatNNN op 0 :=
  formatNNN_mask op (x ++ (y ++ n : BitVec 8) : BitVec 12)

theorem formatXKK_maskLow (op : Nibble) (x : Reg) (kk : Byte) : formatXKK op x kk &&& 0xF0FF#16 = formatXKK op 0 kk := by
  apply BitVec.eq_of_getLsbD_eq
  intro i hi
  rw [show (0xF0FF#16) = formatXKK 0xF 0 0xFF from rfl]
  simp only [formatXKK, BitVec.getLsbD_and, BitVec.getLsbD_append]
  split
  · split
    · have h : i < 8 := by omega
      interval_cases i <;> simp
    · simp
  · have h : i - 12 < 4 := by omega
    interval_cases i - 12 <;> simp

theorem formatXYN_maskLow (op : Nibble) (x y : Reg) (n : Nibble) :
    formatXYN op x y n &&& 0xF00F#16 = formatXYN op 0 0 n := by
  apply BitVec.eq_of_getLsbD_eq
  intro i hi
  rw [show (0xF00F#16) = formatXYN 0xF 0 0 0xF from rfl]
  simp only [formatXYN, BitVec.getLsbD_and, BitVec.getLsbD_append]
  split
  · split
    · split
      · have h : i < 4 := by omega
        interval_cases i <;> simp
      · simp
    · simp
  · have h : i - 12 < 4 := by omega
    interval_cases i - 12 <;> simp

end Sys2Proof
end

