-- ==== Sys2Proof/Laws/State.lean ====
section
/-! SUPPORT. One lemma for each field under each named update of the state, true by unfolding, so that no later proof unfolds a
record update; and the registers and bytes as read after one. -/

namespace Sys2Proof.Machine

variable (s : State)

/-! ### `setReg` -/

@[simp] theorem State.setReg_v (x : Reg) (b : Byte) : (s.setReg x b).v = s.v.set x.toNat b x.isLt := rfl
@[simp] theorem State.setReg_i (x : Reg) (b : Byte) : (s.setReg x b).i = s.i := rfl
@[simp] theorem State.setReg_pc (x : Reg) (b : Byte) : (s.setReg x b).pc = s.pc := rfl
@[simp] theorem State.setReg_stack (x : Reg) (b : Byte) : (s.setReg x b).stack = s.stack := rfl
@[simp] theorem State.setReg_sp (x : Reg) (b : Byte) : (s.setReg x b).sp = s.sp := rfl
@[simp] theorem State.setReg_dt (x : Reg) (b : Byte) : (s.setReg x b).dt = s.dt := rfl
@[simp] theorem State.setReg_st (x : Reg) (b : Byte) : (s.setReg x b).st = s.st := rfl
@[simp] theorem State.setReg_disp (x : Reg) (b : Byte) : (s.setReg x b).disp = s.disp := rfl
@[simp] theorem State.setReg_key (x : Reg) (b : Byte) : (s.setReg x b).key = s.key := rfl
@[simp] theorem State.setReg_permit (x : Reg) (b : Byte) : (s.setReg x b).permit = s.permit := rfl
@[simp] theorem State.setReg_err (x : Reg) (b : Byte) : (s.setReg x b).err = s.err := rfl
@[simp] theorem State.setReg_mem (x : Reg) (b : Byte) : (s.setReg x b).mem = s.mem := rfl
@[simp] theorem State.setReg_cfg (x : Reg) (b : Byte) : (s.setReg x b).cfg = s.cfg := rfl
@[simp] theorem State.setReg_rndDraws (x : Reg) (b : Byte) : (s.setReg x b).rndDraws = s.rndDraws := rfl
@[simp] theorem State.setReg_readByte (x : Reg) (b : Byte) (c : Nat) : (s.setReg x b).readByte c = s.readByte c := rfl

/-! ### `setIndex` -/

@[simp] theorem State.setIndex_v (w : Word) : (s.setIndex w).v = s.v := rfl
@[simp] theorem State.setIndex_i (w : Word) : (s.setIndex w).i = w := rfl
@[simp] theorem State.setIndex_pc (w : Word) : (s.setIndex w).pc = s.pc := rfl
@[simp] theorem State.setIndex_stack (w : Word) : (s.setIndex w).stack = s.stack := rfl
@[simp] theorem State.setIndex_sp (w : Word) : (s.setIndex w).sp = s.sp := rfl
@[simp] theorem State.setIndex_dt (w : Word) : (s.setIndex w).dt = s.dt := rfl
@[simp] theorem State.setIndex_st (w : Word) : (s.setIndex w).st = s.st := rfl
@[simp] theorem State.setIndex_disp (w : Word) : (s.setIndex w).disp = s.disp := rfl
@[simp] theorem State.setIndex_key (w : Word) : (s.setIndex w).key = s.key := rfl
@[simp] theorem State.setIndex_permit (w : Word) : (s.setIndex w).permit = s.permit := rfl
@[simp] theorem State.setIndex_err (w : Word) : (s.setIndex w).err = s.err := rfl
@[simp] theorem State.setIndex_mem (w : Word) : (s.setIndex w).mem = s.mem := rfl
@[simp] theorem State.setIndex_cfg (w : Word) : (s.setIndex w).cfg = s.cfg := rfl
@[simp] theorem State.setIndex_rndDraws (w : Word) : (s.setIndex w).rndDraws = s.rndDraws := rfl
@[simp] theorem State.setIndex_reg (w : Word) (r : Reg) : (s.setIndex w).reg r = s.reg r := rfl
@[simp] theorem State.setIndex_readByte (w : Word) (c : Nat) : (s.setIndex w).readByte c = s.readByte c := rfl

/-! ### `setPc` -/

@[simp] theorem State.setPc_v (w : Word) : (s.setPc w).v = s.v := rfl
@[simp] theorem State.setPc_i (w : Word) : (s.setPc w).i = s.i := rfl
@[simp] theorem State.setPc_pc (w : Word) : (s.setPc w).pc = w := rfl
@[simp] theorem State.setPc_stack (w : Word) : (s.setPc w).stack = s.stack := rfl
@[simp] theorem State.setPc_sp (w : Word) : (s.setPc w).sp = s.sp := rfl
@[simp] theorem State.setPc_dt (w : Word) : (s.setPc w).dt = s.dt := rfl
@[simp] theorem State.setPc_st (w : Word) : (s.setPc w).st = s.st := rfl
@[simp] theorem State.setPc_disp (w : Word) : (s.setPc w).disp = s.disp := rfl
@[simp] theorem State.setPc_key (w : Word) : (s.setPc w).key = s.key := rfl
@[simp] theorem State.setPc_permit (w : Word) : (s.setPc w).permit = s.permit := rfl
@[simp] theorem State.setPc_err (w : Word) : (s.setPc w).err = s.err := rfl
@[simp] theorem State.setPc_mem (w : Word) : (s.setPc w).mem = s.mem := rfl
@[simp] theorem State.setPc_cfg (w : Word) : (s.setPc w).cfg = s.cfg := rfl
@[simp] theorem State.setPc_rndDraws (w : Word) : (s.setPc w).rndDraws = s.rndDraws := rfl
@[simp] theorem State.setPc_reg (w : Word) (r : Reg) : (s.setPc w).reg r = s.reg r := rfl
@[simp] theorem State.setPc_readByte (w : Word) (c : Nat) : (s.setPc w).readByte c = s.readByte c := rfl

/-! ### `setDelay` -/

@[simp] theorem State.setDelay_v (b : Byte) : (s.setDelay b).v = s.v := rfl
@[simp] theorem State.setDelay_i (b : Byte) : (s.setDelay b).i = s.i := rfl
@[simp] theorem State.setDelay_pc (b : Byte) : (s.setDelay b).pc = s.pc := rfl
@[simp] theorem State.setDelay_stack (b : Byte) : (s.setDelay b).stack = s.stack := rfl
@[simp] theorem State.setDelay_sp (b : Byte) : (s.setDelay b).sp = s.sp := rfl
@[simp] theorem State.setDelay_dt (b : Byte) : (s.setDelay b).dt = b := rfl
@[simp] theorem State.setDelay_st (b : Byte) : (s.setDelay b).st = s.st := rfl
@[simp] theorem State.setDelay_disp (b : Byte) : (s.setDelay b).disp = s.disp := rfl
@[simp] theorem State.setDelay_key (b : Byte) : (s.setDelay b).key = s.key := rfl
@[simp] theorem State.setDelay_permit (b : Byte) : (s.setDelay b).permit = s.permit := rfl
@[simp] theorem State.setDelay_err (b : Byte) : (s.setDelay b).err = s.err := rfl
@[simp] theorem State.setDelay_mem (b : Byte) : (s.setDelay b).mem = s.mem := rfl
@[simp] theorem State.setDelay_cfg (b : Byte) : (s.setDelay b).cfg = s.cfg := rfl
@[simp] theorem State.setDelay_rndDraws (b : Byte) : (s.setDelay b).rndDraws = s.rndDraws := rfl
@[simp] theorem State.setDelay_reg (b : Byte) (r : Reg) : (s.setDelay b).reg r = s.reg r := rfl
@[simp] theorem State.setDelay_readByte (b : Byte) (c : Nat) : (s.setDelay b).readByte c = s.readByte c := rfl

/-! ### `setSound` -/

@[simp] theorem State.setSound_v (b : Byte) : (s.setSound b).v = s.v := rfl
@[simp] theorem State.setSound_i (b : Byte) : (s.setSound b).i = s.i := rfl
@[simp] theorem State.setSound_pc (b : Byte) : (s.setSound b).pc = s.pc := rfl
@[simp] theorem State.setSound_stack (b : Byte) : (s.setSound b).stack = s.stack := rfl
@[simp] theorem State.setSound_sp (b : Byte) : (s.setSound b).sp = s.sp := rfl
@[simp] theorem State.setSound_dt (b : Byte) : (s.setSound b).dt = s.dt := rfl
@[simp] theorem State.setSound_st (b : Byte) : (s.setSound b).st = b := rfl
@[simp] theorem State.setSound_disp (b : Byte) : (s.setSound b).disp = s.disp := rfl
@[simp] theorem State.setSound_key (b : Byte) : (s.setSound b).key = s.key := rfl
@[simp] theorem State.setSound_permit (b : Byte) : (s.setSound b).permit = s.permit := rfl
@[simp] theorem State.setSound_err (b : Byte) : (s.setSound b).err = s.err := rfl
@[simp] theorem State.setSound_mem (b : Byte) : (s.setSound b).mem = s.mem := rfl
@[simp] theorem State.setSound_cfg (b : Byte) : (s.setSound b).cfg = s.cfg := rfl
@[simp] theorem State.setSound_rndDraws (b : Byte) : (s.setSound b).rndDraws = s.rndDraws := rfl
@[simp] theorem State.setSound_reg (b : Byte) (r : Reg) : (s.setSound b).reg r = s.reg r := rfl
@[simp] theorem State.setSound_readByte (b : Byte) (c : Nat) : (s.setSound b).readByte c = s.readByte c := rfl

/-! ### `setDisplay` -/

@[simp] theorem State.setDisplay_v (d : Display) : (s.setDisplay d).v = s.v := rfl
@[simp] theorem State.setDisplay_i (d : Display) : (s.setDisplay d).i = s.i := rfl
@[simp] theorem State.setDisplay_pc (d : Display) : (s.setDisplay d).pc = s.pc := rfl
@[simp] theorem State.setDisplay_stack (d : Display) : (s.setDisplay d).stack = s.stack := rfl
@[simp] theorem State.setDisplay_sp (d : Display) : (s.setDisplay d).sp = s.sp := rfl
@[simp] theorem State.setDisplay_dt (d : Display) : (s.setDisplay d).dt = s.dt := rfl
@[simp] theorem State.setDisplay_st (d : Display) : (s.setDisplay d).st = s.st := rfl
@[simp] theorem State.setDisplay_disp (d : Display) : (s.setDisplay d).disp = d := rfl
@[simp] theorem State.setDisplay_key (d : Display) : (s.setDisplay d).key = s.key := rfl
@[simp] theorem State.setDisplay_permit (d : Display) : (s.setDisplay d).permit = s.permit := rfl
@[simp] theorem State.setDisplay_err (d : Display) : (s.setDisplay d).err = s.err := rfl
@[simp] theorem State.setDisplay_mem (d : Display) : (s.setDisplay d).mem = s.mem := rfl
@[simp] theorem State.setDisplay_cfg (d : Display) : (s.setDisplay d).cfg = s.cfg := rfl
@[simp] theorem State.setDisplay_rndDraws (d : Display) : (s.setDisplay d).rndDraws = s.rndDraws := rfl
@[simp] theorem State.setDisplay_reg (d : Display) (r : Reg) : (s.setDisplay d).reg r = s.reg r := rfl
@[simp] theorem State.setDisplay_readByte (d : Display) (c : Nat) : (s.setDisplay d).readByte c = s.readByte c := rfl

/-! ### `setKeyCell` -/

@[simp] theorem State.setKeyCell_v (k : Nat) (b : Bool) : (s.setKeyCell k b).v = s.v := rfl
@[simp] theorem State.setKeyCell_i (k : Nat) (b : Bool) : (s.setKeyCell k b).i = s.i := rfl
@[simp] theorem State.setKeyCell_pc (k : Nat) (b : Bool) : (s.setKeyCell k b).pc = s.pc := rfl
@[simp] theorem State.setKeyCell_stack (k : Nat) (b : Bool) : (s.setKeyCell k b).stack = s.stack := rfl
@[simp] theorem State.setKeyCell_sp (k : Nat) (b : Bool) : (s.setKeyCell k b).sp = s.sp := rfl
@[simp] theorem State.setKeyCell_dt (k : Nat) (b : Bool) : (s.setKeyCell k b).dt = s.dt := rfl
@[simp] theorem State.setKeyCell_st (k : Nat) (b : Bool) : (s.setKeyCell k b).st = s.st := rfl
@[simp] theorem State.setKeyCell_disp (k : Nat) (b : Bool) : (s.setKeyCell k b).disp = s.disp := rfl
@[simp] theorem State.setKeyCell_key (k : Nat) (b : Bool) : (s.setKeyCell k b).key = s.key.setIfInBounds k b := rfl
@[simp] theorem State.setKeyCell_permit (k : Nat) (b : Bool) : (s.setKeyCell k b).permit = s.permit := rfl
@[simp] theorem State.setKeyCell_err (k : Nat) (b : Bool) : (s.setKeyCell k b).err = s.err := rfl
@[simp] theorem State.setKeyCell_mem (k : Nat) (b : Bool) : (s.setKeyCell k b).mem = s.mem := rfl
@[simp] theorem State.setKeyCell_cfg (k : Nat) (b : Bool) : (s.setKeyCell k b).cfg = s.cfg := rfl
@[simp] theorem State.setKeyCell_rndDraws (k : Nat) (b : Bool) : (s.setKeyCell k b).rndDraws = s.rndDraws := rfl
@[simp] theorem State.setKeyCell_reg (k : Nat) (b : Bool) (r : Reg) : (s.setKeyCell k b).reg r = s.reg r := rfl
@[simp] theorem State.setKeyCell_readByte (k : Nat) (b : Bool) (c : Nat) : (s.setKeyCell k b).readByte c = s.readByte c := rfl

/-! ### `setPermit` -/

@[simp] theorem State.setPermit_v (b : Bool) : (s.setPermit b).v = s.v := rfl
@[simp] theorem State.setPermit_i (b : Bool) : (s.setPermit b).i = s.i := rfl
@[simp] theorem State.setPermit_pc (b : Bool) : (s.setPermit b).pc = s.pc := rfl
@[simp] theorem State.setPermit_stack (b : Bool) : (s.setPermit b).stack = s.stack := rfl
@[simp] theorem State.setPermit_sp (b : Bool) : (s.setPermit b).sp = s.sp := rfl
@[simp] theorem State.setPermit_dt (b : Bool) : (s.setPermit b).dt = s.dt := rfl
@[simp] theorem State.setPermit_st (b : Bool) : (s.setPermit b).st = s.st := rfl
@[simp] theorem State.setPermit_disp (b : Bool) : (s.setPermit b).disp = s.disp := rfl
@[simp] theorem State.setPermit_key (b : Bool) : (s.setPermit b).key = s.key := rfl
@[simp] theorem State.setPermit_permit (b : Bool) : (s.setPermit b).permit = b := rfl
@[simp] theorem State.setPermit_err (b : Bool) : (s.setPermit b).err = s.err := rfl
@[simp] theorem State.setPermit_mem (b : Bool) : (s.setPermit b).mem = s.mem := rfl
@[simp] theorem State.setPermit_cfg (b : Bool) : (s.setPermit b).cfg = s.cfg := rfl
@[simp] theorem State.setPermit_rndDraws (b : Bool) : (s.setPermit b).rndDraws = s.rndDraws := rfl
@[simp] theorem State.setPermit_reg (b : Bool) (r : Reg) : (s.setPermit b).reg r = s.reg r := rfl
@[simp] theorem State.setPermit_readByte (b : Bool) (c : Nat) : (s.setPermit b).readByte c = s.readByte c := rfl

/-! ### `latch` -/

@[simp] theorem State.latch_v (e : StepError) : (s.latch e).v = s.v := rfl
@[simp] theorem State.latch_i (e : StepError) : (s.latch e).i = s.i := rfl
@[simp] theorem State.latch_pc (e : StepError) : (s.latch e).pc = s.pc := rfl
@[simp] theorem State.latch_stack (e : StepError) : (s.latch e).stack = s.stack := rfl
@[simp] theorem State.latch_sp (e : StepError) : (s.latch e).sp = s.sp := rfl
@[simp] theorem State.latch_dt (e : StepError) : (s.latch e).dt = s.dt := rfl
@[simp] theorem State.latch_st (e : StepError) : (s.latch e).st = s.st := rfl
@[simp] theorem State.latch_disp (e : StepError) : (s.latch e).disp = s.disp := rfl
@[simp] theorem State.latch_key (e : StepError) : (s.latch e).key = s.key := rfl
@[simp] theorem State.latch_permit (e : StepError) : (s.latch e).permit = s.permit := rfl
@[simp] theorem State.latch_err (e : StepError) : (s.latch e).err = some e := rfl
@[simp] theorem State.latch_mem (e : StepError) : (s.latch e).mem = s.mem := rfl
@[simp] theorem State.latch_cfg (e : StepError) : (s.latch e).cfg = s.cfg := rfl
@[simp] theorem State.latch_rndDraws (e : StepError) : (s.latch e).rndDraws = s.rndDraws := rfl
@[simp] theorem State.latch_reg (e : StepError) (r : Reg) : (s.latch e).reg r = s.reg r := rfl
@[simp] theorem State.latch_readByte (e : StepError) (c : Nat) : (s.latch e).readByte c = s.readByte c := rfl

/-! ### `countDraw` -/

@[simp] theorem State.countDraw_v : s.countDraw.v = s.v := rfl
@[simp] theorem State.countDraw_i : s.countDraw.i = s.i := rfl
@[simp] theorem State.countDraw_pc : s.countDraw.pc = s.pc := rfl
@[simp] theorem State.countDraw_stack : s.countDraw.stack = s.stack := rfl
@[simp] theorem State.countDraw_sp : s.countDraw.sp = s.sp := rfl
@[simp] theorem State.countDraw_dt : s.countDraw.dt = s.dt := rfl
@[simp] theorem State.countDraw_st : s.countDraw.st = s.st := rfl
@[simp] theorem State.countDraw_disp : s.countDraw.disp = s.disp := rfl
@[simp] theorem State.countDraw_key : s.countDraw.key = s.key := rfl
@[simp] theorem State.countDraw_permit : s.countDraw.permit = s.permit := rfl
@[simp] theorem State.countDraw_err : s.countDraw.err = s.err := rfl
@[simp] theorem State.countDraw_mem : s.countDraw.mem = s.mem := rfl
@[simp] theorem State.countDraw_cfg : s.countDraw.cfg = s.cfg := rfl
@[simp] theorem State.countDraw_rndDraws : s.countDraw.rndDraws = s.rndDraws + 1 := rfl
@[simp] theorem State.countDraw_reg (r : Reg) : s.countDraw.reg r = s.reg r := rfl
@[simp] theorem State.countDraw_readByte (c : Nat) : s.countDraw.readByte c = s.readByte c := rfl

/-! ### `writeByte` -/

@[simp] theorem State.writeByte_v (a : Nat) (b : Byte) : (s.writeByte a b).v = s.v := rfl
@[simp] theorem State.writeByte_i (a : Nat) (b : Byte) : (s.writeByte a b).i = s.i := rfl
@[simp] theorem State.writeByte_pc (a : Nat) (b : Byte) : (s.writeByte a b).pc = s.pc := rfl
@[simp] theorem State.writeByte_stack (a : Nat) (b : Byte) : (s.writeByte a b).stack = s.stack := rfl
@[simp] theorem State.writeByte_sp (a : Nat) (b : Byte) : (s.writeByte a b).sp = s.sp := rfl
@[simp] theorem State.writeByte_dt (a : Nat) (b : Byte) : (s.writeByte a b).dt = s.dt := rfl
@[simp] theorem State.writeByte_st (a : Nat) (b : Byte) : (s.writeByte a b).st = s.st := rfl
@[simp] theorem State.writeByte_disp (a : Nat) (b : Byte) : (s.writeByte a b).disp = s.disp := rfl
@[simp] theorem State.writeByte_key (a : Nat) (b : Byte) : (s.writeByte a b).key = s.key := rfl
@[simp] theorem State.writeByte_permit (a : Nat) (b : Byte) : (s.writeByte a b).permit = s.permit := rfl
@[simp] theorem State.writeByte_err (a : Nat) (b : Byte) : (s.writeByte a b).err = s.err := rfl
@[simp] theorem State.writeByte_mem (a : Nat) (b : Byte) : (s.writeByte a b).mem = Memory.write s.cfg s.mem a b := rfl
@[simp] theorem State.writeByte_cfg (a : Nat) (b : Byte) : (s.writeByte a b).cfg = s.cfg := rfl
@[simp] theorem State.writeByte_rndDraws (a : Nat) (b : Byte) : (s.writeByte a b).rndDraws = s.rndDraws := rfl
@[simp] theorem State.writeByte_reg (a : Nat) (b : Byte) (r : Reg) : (s.writeByte a b).reg r = s.reg r := rfl

/-! ### `advance` -/

@[simp] theorem State.advance_v : s.advance.v = s.v := rfl
@[simp] theorem State.advance_i : s.advance.i = s.i := rfl
@[simp] theorem State.advance_pc : s.advance.pc = s.pc + 2 := rfl
@[simp] theorem State.advance_stack : s.advance.stack = s.stack := rfl
@[simp] theorem State.advance_sp : s.advance.sp = s.sp := rfl
@[simp] theorem State.advance_dt : s.advance.dt = s.dt := rfl
@[simp] theorem State.advance_st : s.advance.st = s.st := rfl
@[simp] theorem State.advance_disp : s.advance.disp = s.disp := rfl
@[simp] theorem State.advance_key : s.advance.key = s.key := rfl
@[simp] theorem State.advance_permit : s.advance.permit = s.permit := rfl
@[simp] theorem State.advance_err : s.advance.err = s.err := rfl
@[simp] theorem State.advance_mem : s.advance.mem = s.mem := rfl
@[simp] theorem State.advance_cfg : s.advance.cfg = s.cfg := rfl
@[simp] theorem State.advance_rndDraws : s.advance.rndDraws = s.rndDraws := rfl
@[simp] theorem State.advance_reg (r : Reg) : s.advance.reg r = s.reg r := rfl
@[simp] theorem State.advance_readByte (c : Nat) : s.advance.readByte c = s.readByte c := rfl

/-! ### `rewind` -/

@[simp] theorem State.rewind_v : s.rewind.v = s.v := rfl
@[simp] theorem State.rewind_i : s.rewind.i = s.i := rfl
@[simp] theorem State.rewind_pc : s.rewind.pc = s.pc - 2 := rfl
@[simp] theorem State.rewind_stack : s.rewind.stack = s.stack := rfl
@[simp] theorem State.rewind_sp : s.rewind.sp = s.sp := rfl
@[simp] theorem State.rewind_dt : s.rewind.dt = s.dt := rfl
@[simp] theorem State.rewind_st : s.rewind.st = s.st := rfl
@[simp] theorem State.rewind_disp : s.rewind.disp = s.disp := rfl
@[simp] theorem State.rewind_key : s.rewind.key = s.key := rfl
@[simp] theorem State.rewind_permit : s.rewind.permit = s.permit := rfl
@[simp] theorem State.rewind_err : s.rewind.err = s.err := rfl
@[simp] theorem State.rewind_mem : s.rewind.mem = s.mem := rfl
@[simp] theorem State.rewind_cfg : s.rewind.cfg = s.cfg := rfl
@[simp] theorem State.rewind_rndDraws : s.rewind.rndDraws = s.rndDraws := rfl
@[simp] theorem State.rewind_reg (r : Reg) : s.rewind.reg r = s.reg r := rfl
@[simp] theorem State.rewind_readByte (c : Nat) : s.rewind.readByte c = s.readByte c := rfl

/-! ### Registers -/

@[simp] theorem State.reg_setReg (x : Reg) (b : Byte) (r : Reg) : (s.setReg x b).reg r = if r = x then b else s.reg r := by
  simp only [State.reg, State.setReg, Vector.getElem_set, ← BitVec.toNat_inj, eq_comm (a := x.toNat)]

theorem State.reg_setReg_self (x : Reg) (b : Byte) : (s.setReg x b).reg x = b := by simp

theorem State.reg_setReg_of_ne {x r : Reg} (b : Byte) (h : r ≠ x) : (s.setReg x b).reg r = s.reg r := by simp [h]

/-- Registers are equal when every one of the sixteen reads the same. -/
theorem State.v_ext {s t : State} (h : ∀ r : Reg, s.reg r = t.reg r) : s.v = t.v := by
  apply Vector.ext
  intro k hk
  have := h (BitVec.ofNat 4 k)
  simpa [State.reg, Nat.mod_eq_of_lt hk] using this

end Sys2Proof.Machine
end

