-- ==== Sys2Proof/Laws/Memory.lean ====
section
/-! SUPPORT. Memory: a read after a write, and the canonical form. -/

namespace Sys2Proof.Machine

variable {c : Config}

theorem Memory.read_erase_self (m : Memory) (a : Nat) : Memory.read c (Memory.erase m a) a = resetByte c a := by
  induction m with
  | nil => rfl
  | cons d m ih => by_cases h : d.1 = a <;> simp_all [Memory.erase, Memory.read]

theorem Memory.read_erase_of_ne (m : Memory) {a a' : Nat} (h : a' ≠ a) :
    Memory.read c (Memory.erase m a) a' = Memory.read c m a' := by
  induction m with
  | nil => rfl
  | cons d m ih =>
    by_cases hd : d.1 = a
    · have : d.1 ≠ a' := fun e => h (e ▸ hd)
      simp_all [Memory.erase, Memory.read]
    · simp_all [Memory.erase, Memory.read]

theorem Memory.read_insert (m : Memory) (a a' : Nat) (b : Byte) (hm : ∀ d ∈ m, d.1 ≠ a) :
    Memory.read c (Memory.insert m a b) a' = if a' = a then b else Memory.read c m a' := by
  induction m with
  | nil => simp [Memory.insert, Memory.read, eq_comm]
  | cons d m ih =>
    have ih := ih (fun e he => hm e (List.mem_cons_of_mem _ he))
    have hd := hm d List.mem_cons_self
    unfold Memory.insert
    split
    · simp only [Memory.read]
      by_cases e : a' = a
      · simp [e]
      · simp [e, Ne.symm e]
    · simp only [Memory.read, ih]
      by_cases e : a' = a
      · subst e; simp [hd]
      · simp [e]

theorem Memory.mem_erase {m : Memory} {a : Nat} {d : Host.Cell} : d ∈ Memory.erase m a ↔ d ∈ m ∧ d.1 ≠ a := by
  simp [Memory.erase]

theorem Memory.mem_insert {m : Memory} {a : Nat} {b : Byte} {d : Host.Cell} :
    d ∈ Memory.insert m a b ↔ d = (a, b) ∨ d ∈ m := by
  induction m with
  | nil => simp [Memory.insert]
  | cons e m ih => unfold Memory.insert; split <;> simp_all; tauto

/-- A write sets its own address and leaves every other alone, in every memory, canonical or not. -/
theorem Memory.read_write (m : Memory) (a a' : Nat) (b : Byte) :
    Memory.read c (Memory.write c m a b) a' = if a' = a then b else Memory.read c m a' := by
  unfold Memory.write
  split
  · next h =>
    split
    · next e => rw [e, Memory.read_erase_self, h]
    · next e => exact Memory.read_erase_of_ne m e
  · rw [Memory.read_insert _ _ _ _ fun d hd => (Memory.mem_erase.1 hd).2]
    split
    · rfl
    · next e => exact Memory.read_erase_of_ne m e

theorem Memory.erase_wf {m : Memory} (a : Nat) (h : Memory.wf c m) : Memory.wf c (Memory.erase m a) :=
  ⟨h.1.sublist List.filter_sublist, fun d hd => h.2 d (Memory.mem_erase.1 hd).1⟩

theorem Memory.insert_wf {m : Memory} {a : Nat} {b : Byte} (h : Memory.wf c m) (hm : ∀ d ∈ m, d.1 ≠ a)
    (ha : a < memSize) (hb : b ≠ resetByte c a) : Memory.wf c (Memory.insert m a b) := by
  refine ⟨?_, fun d hd => ?_⟩
  · obtain ⟨hs, -⟩ := h
    induction m with
    | nil => simp [Memory.insert]
    | cons e m ih =>
      rw [List.pairwise_cons] at hs
      have he := hm e List.mem_cons_self
      unfold Memory.insert
      split
      · next hlt =>
        refine List.pairwise_cons.2 ⟨fun d hd => ?_, List.pairwise_cons.2 hs⟩
        rcases List.mem_cons.1 hd with rfl | hd
        · exact hlt
        · exact Nat.lt_trans hlt (hs.1 d hd)
      · next hge =>
        refine List.pairwise_cons.2 ⟨fun d hd => ?_, ih (fun d hd => hm d (List.mem_cons_of_mem _ hd)) hs.2⟩
        rcases Memory.mem_insert.1 hd with rfl | hd
        · exact Nat.lt_of_le_of_ne (Nat.not_lt.1 hge) he
        · exact hs.1 d hd
  · rcases Memory.mem_insert.1 hd with rfl | hd
    · exact ⟨ha, hb⟩
    · exact h.2 d hd

/-- A write in bounds keeps the canonical form. -/
theorem Memory.write_wf {m : Memory} {a : Nat} (b : Byte) (h : Memory.wf c m) (ha : a < memSize) :
    Memory.wf c (Memory.write c m a b) := by
  unfold Memory.write
  split
  · exact Memory.erase_wf a h
  · next hb => exact Memory.insert_wf (Memory.erase_wf a h) (fun d hd => (Memory.mem_erase.1 hd).2) ha hb

/-- Memory lists nothing at reset, which is canonical. -/
theorem Memory.nil_wf : Memory.wf c [] := ⟨List.Pairwise.nil, by simp⟩

@[simp] theorem State.readByte_writeByte (s : State) (a a' : Nat) (b : Byte) :
    (s.writeByte a b).readByte a' = if a' = a then b else s.readByte a' := Memory.read_write s.mem a a' b

end Sys2Proof.Machine
end

