-- ==== Sys2Proof/Laws/Ops.lean ====
section
/-! SUPPORT. One lemma for each shared operation that says everything it can do. -/

namespace Sys2Proof.Machine

/-! ### The bounds check -/

theorem firstOutOfBounds_eq_none {a n : Nat} : firstOutOfBounds a n = none ↔ n = 0 ∨ a + n ≤ memSize := by
  unfold firstOutOfBounds; split <;> simp_all

/-- The address reported is the lowest out-of-bounds one of the access (R37). -/
theorem firstOutOfBounds_eq_some {a n bad : Nat} :
    firstOutOfBounds a n = some bad ↔
      a ≤ bad ∧ bad < a + n ∧ memSize ≤ bad ∧ ∀ k, a ≤ k → k < bad → k < memSize := by
  unfold firstOutOfBounds
  split
  · next h =>
    simp only [reduceCtorEq, false_iff]
    rintro ⟨h1, h2, h3, -⟩
    omega
  · next h =>
    simp only [Option.some.injEq]
    constructor
    · rintro rfl
      exact ⟨by omega, by omega, by omega, fun k h1 h2 => by omega⟩
    · rintro ⟨h1, h2, h3, h4⟩
      by_cases hb : a < bad
      · have := h4 (bad - 1) (by omega) (by omega)
        omega
      · omega

/-! ### Reading and writing runs of bytes -/

@[simp] theorem State.length_readBytes (s : State) (a n : Nat) : (s.readBytes a n).length = n := by
  induction n generalizing a with
  | zero => rfl
  | succ n ih => simp [State.readBytes, ih]

theorem State.getElem_readBytes (s : State) (a n k : Nat) (h : k < (s.readBytes a n).length) :
    (s.readBytes a n)[k] = s.readByte (a + k) := by
  induction n generalizing a k with
  | zero => simp at h
  | succ n ih =>
    cases k with
    | zero => rfl
    | succ k =>
      simp only [State.readBytes, List.getElem_cons_succ]
      rw [ih]
      congr 1
      omega

/-- A run of bytes depends on those bytes alone. -/
theorem State.readBytes_congr {s t : State} {a n : Nat} (h : ∀ k < n, s.readByte (a + k) = t.readByte (a + k)) :
    s.readBytes a n = t.readBytes a n := by
  apply List.ext_getElem (by simp)
  intro k h1 h2
  rw [State.getElem_readBytes, State.getElem_readBytes]
  exact h k (by simpa using h1)

/-- A run of writes changes memory alone. -/
theorem State.writeBytes_eq (s : State) (a : Nat) (bs : List Byte) :
    s.writeBytes a bs = { s with mem := (s.writeBytes a bs).mem } := by
  induction bs generalizing s a with
  | nil => rfl
  | cons b bs ih => rw [State.writeBytes, ih]; rfl

/-- A run of writes sets its own bytes and leaves every other alone. -/
theorem State.readByte_writeBytes (s : State) (a a' : Nat) (bs : List Byte) :
    (s.writeBytes a bs).readByte a' =
      if h : a ≤ a' ∧ a' < a + bs.length then bs[a' - a]'(by omega) else s.readByte a' := by
  induction bs generalizing s a with
  | nil => rw [State.writeBytes, dif_neg (by simp)]
  | cons b bs ih =>
    rw [State.writeBytes, ih]
    by_cases e : a' = a
    · subst e
      rw [dif_neg (by omega), dif_pos (by simp)]
      simp
    · by_cases h : a + 1 ≤ a' ∧ a' < a + 1 + bs.length
      · rw [dif_pos h, dif_pos (by simp; omega)]
        obtain ⟨k, rfl⟩ : ∃ k, a' = a + 1 + k := ⟨a' - (a + 1), by omega⟩
        have h1 : a + 1 + k - a = k + 1 := by omega
        have h2 : a + 1 + k - (a + 1) = k := by omega
        simp only [h1, h2, List.getElem_cons_succ]
      · rw [dif_neg h, dif_neg (by simp; omega)]
        simp [e]

/-- A run of writes in bounds keeps the canonical form. -/
theorem State.writeBytes_wf {s : State} {a : Nat} {bs : List Byte} (hs : Memory.wf s.cfg s.mem)
    (h : bs = [] ∨ a + bs.length ≤ memSize) : Memory.wf s.cfg (s.writeBytes a bs).mem := by
  induction bs generalizing s a with
  | nil => exact hs
  | cons b bs ih =>
    simp only [reduceCtorEq, List.length_cons, false_or] at h
    refine ih (s := s.writeByte a b) (Memory.write_wf b hs (by omega)) ?_
    right; omega

/-! ### The checked primitives -/

/-- `MemRead` answers the bytes, or the lowest out-of-bounds address. -/
theorem State.memRead_cases (s : State) (a n : Nat) :
    (firstOutOfBounds a n = none ∧ s.memRead a n = .ok (s.readBytes a n)) ∨
    ∃ bad, firstOutOfBounds a n = some bad ∧ s.memRead a n = .error (.memOutOfBounds bad) := by
  unfold State.memRead
  cases h : firstOutOfBounds a n with
  | none => exact .inl ⟨rfl, rfl⟩
  | some bad => exact .inr ⟨bad, rfl, rfl⟩

theorem State.memRead_ok (s : State) {a n : Nat} (h : n = 0 ∨ a + n ≤ memSize) :
    s.memRead a n = .ok (s.readBytes a n) := by
  simp [State.memRead, firstOutOfBounds_eq_none.2 h]

/-- `MemWrite` answers the state with the bytes stored, or the lowest out-of-bounds address. -/
theorem State.memWrite_cases (s : State) (a : Nat) (bs : List Byte) :
    (firstOutOfBounds a bs.length = none ∧ s.memWrite a bs = .ok (s.writeBytes a bs)) ∨
    ∃ bad, firstOutOfBounds a bs.length = some bad ∧ s.memWrite a bs = .error (.memOutOfBounds bad) := by
  unfold State.memWrite
  cases h : firstOutOfBounds a bs.length with
  | none => exact .inl ⟨rfl, rfl⟩
  | some bad => exact .inr ⟨bad, rfl, rfl⟩

theorem State.memWrite_ok (s : State) {a : Nat} {bs : List Byte} (h : bs.length = 0 ∨ a + bs.length ≤ memSize) :
    s.memWrite a bs = .ok (s.writeBytes a bs) := by
  simp [State.memWrite, firstOutOfBounds_eq_none.2 h]

/-! ### The stack -/

/-- A push stores `pc` at `sp` and counts it, or overflows. -/
theorem State.push_cases (s : State) :
    (∃ h : s.sp.val < 16, s.push =
      .ok { s with stack := s.stack.set s.sp.val s.pc h, sp := ⟨s.sp.val + 1, by omega⟩ }) ∨
    (s.sp.val = 16 ∧ s.push = .error .stackOverflow) := by
  unfold State.push
  split
  · next h => exact .inl ⟨h, rfl⟩
  · exact .inr ⟨by omega, rfl⟩

/-- A pop takes the newest cell into `pc`, or underflows. -/
theorem State.pop_cases (s : State) :
    (∃ k : Fin 16, s.sp.val = k.val + 1 ∧ s.pop = .ok { s with sp := ⟨k.val, by omega⟩, pc := s.stack[k] }) ∨
    (s.sp.val = 0 ∧ s.pop = .error .stackUnderflow) := by
  unfold State.pop
  split
  · next h => exact .inr ⟨h, rfl⟩
  · next h => exact .inl ⟨⟨s.sp.val - 1, by omega⟩, by simp; omega, rfl⟩

/-! ### Skips and errors -/

theorem State.skipIf_eq (s : State) (b : Bool) : s.skipIf b = { s with pc := if b then s.pc + 2 else s.pc } := by
  cases b <;> rfl

@[simp] theorem orRaise_ok {α : Type} (a : α) (s : State) (k : α → Result) : orRaise (.ok a) s k = k a := rfl

@[simp] theorem orRaise_error {α : Type} (e : StepError) (s : State) (k : α → Result) :
    orRaise (.error e) s k = .next (s.latch e) := rfl

end Sys2Proof.Machine
end

