-- ==== Sys2Proof/Laws/Operands.lean ====
section
/-! SUPPORT. The operand forms and the flag write: what each gives, said once. -/

namespace Sys2Proof.Machine

/-! ### Result and flag -/

@[simp] theorem State.reg_setFlag (s : State) (f : Bool) (r : Reg) :
    (s.setFlag f).reg r = if r = flagReg then flagByte f else s.reg r := by simp [State.setFlag]

/-- The flag is what remains in `VF`, also when `VF` is the destination (R68). -/
@[simp] theorem State.reg_setResult (s : State) (x : Reg) (b : Byte) (f : Bool) (r : Reg) :
    (s.setResult x b f).reg r = if r = flagReg then flagByte f else if r = x then b else s.reg r := by
  simp [State.setResult]

/-- Writing a result with its flag changes registers alone. -/
theorem State.setResult_eq (s : State) (x : Reg) (b : Byte) (f : Bool) :
    s.setResult x b f = { s with v := (s.setResult x b f).v } := rfl

/-! ### Register lists -/

@[simp] theorem State.length_regsUpTo (s : State) (x : Reg) : (s.regsUpTo x).length = x.toNat + 1 := by
  have := x.isLt
  simp [State.regsUpTo]
  omega

theorem State.getElem_regsUpTo (s : State) (x r : Reg) (h : r.toNat < (s.regsUpTo x).length) :
    (s.regsUpTo x)[r.toNat] = s.reg r := by simp [State.regsUpTo, State.reg]

/-- Loading a list of registers changes registers alone. -/
theorem State.setRegsFrom_eq (s : State) (k : Nat) (bs : List Byte) :
    s.setRegsFrom k bs = { s with v := (s.setRegsFrom k bs).v } := by
  induction bs generalizing s k with
  | nil => rfl
  | cons b bs ih => rw [State.setRegsFrom, ih]

/-- Loading a list of registers sets the listed ones and leaves the others alone. -/
theorem State.reg_setRegsFrom (s : State) (k : Nat) (bs : List Byte) (r : Reg) :
    (s.setRegsFrom k bs).reg r =
      if h : k ≤ r.toNat ∧ r.toNat < k + bs.length then bs[r.toNat - k]'(by omega) else s.reg r := by
  induction bs generalizing s k with
  | nil => rw [State.setRegsFrom, dif_neg (by simp)]
  | cons b bs ih =>
    rw [State.setRegsFrom, ih]
    have hr := r.isLt
    by_cases e : r.toNat = k
    · rw [dif_neg (by omega), dif_pos (by simp; omega)]
      simp [State.reg, e]
    · by_cases h : k + 1 ≤ r.toNat ∧ r.toNat < k + 1 + bs.length
      · rw [dif_pos h, dif_pos (by simp; omega)]
        have h1 : r.toNat - k = (r.toNat - (k + 1)) + 1 := by omega
        simp only [h1, List.getElem_cons_succ]
      · rw [dif_neg h, dif_neg (by simp; omega)]
        simp only [State.reg]
        rw [Vector.getElem_setIfInBounds_ne]
        omega

/-! ### Keys -/

/-- The key index check: a register content of 0 to 15 reads its key, any other is an error (R121). -/
theorem State.keyAt_cases (s : State) (b : Byte) :
    (∃ k : Fin 16, b.toNat = k.val ∧ s.keyAt b = .ok s.key[k]) ∨
    (b.toNat > 15 ∧ s.keyAt b = .error (.keyIndexOutOfRange b)) := by
  unfold State.keyAt
  split
  · next h => exact .inl ⟨⟨b.toNat, h⟩, rfl, rfl⟩
  · exact .inr ⟨by omega, rfl⟩

theorem scanKeys_eq_none {k : Nat} {l : List Bool} : scanKeys k l = none ↔ ∀ b ∈ l, b = false := by
  induction l generalizing k with
  | nil => simp [scanKeys]
  | cons b l ih => cases b <;> simp [scanKeys, ih]

theorem scanKeys_eq_some {k m : Nat} {l : List Bool} :
    scanKeys k l = some m ↔
      k ≤ m ∧ ∃ h : m - k < l.length, l[m - k] = true ∧ ∀ j, (hj : j < m - k) → l[j] = false := by
  induction l generalizing k with
  | nil => simp [scanKeys]
  | cons b l ih =>
    cases b with
    | true =>
      simp only [scanKeys, if_true, Option.some.injEq]
      constructor
      · rintro rfl; simp
      · rintro ⟨hk, h, -, hj⟩
        by_contra hne
        have := hj 0 (by omega)
        simp at this
    | false =>
      simp only [scanKeys, Bool.false_eq_true, if_false, ih]
      constructor
      · rintro ⟨hk, h, h1, h2⟩
        have e : m - k = (m - (k + 1)) + 1 := by omega
        refine ⟨by omega, by simp; omega, by simpa [e] using h1, fun j hj => ?_⟩
        cases j with
        | zero => rfl
        | succ j => simpa using h2 j (by omega)
      · rintro ⟨hk, h, h1, h2⟩
        have hne : m - k ≠ 0 := fun e => by simp [e] at h1
        have e : m - k = (m - (k + 1)) + 1 := by omega
        refine ⟨by omega, by simp at h; omega, by simpa [e] using h1, fun j hj => ?_⟩
        simpa using h2 (j + 1) (by omega)

/-- No lowest key exactly when none is pressed. -/
theorem State.lowestKey_eq_none {s : State} : s.lowestKey = none ↔ ∀ k : Fin 16, s.key[k] = false := by
  rw [State.lowestKey, scanKeys_eq_none]
  constructor
  · intro h k
    exact h _ (by simp)
  · intro h b hb
    obtain ⟨k, hk, rfl⟩ := List.getElem_of_mem hb
    simpa using h ⟨k, by simpa using hk⟩

/-- The lowest key is pressed, and no lower one is (R117). -/
theorem State.lowestKey_eq_some {s : State} {m : Nat} :
    s.lowestKey = some m ↔ ∃ k : Fin 16, k.val = m ∧ s.key[k] = true ∧ ∀ j : Fin 16, j < k → s.key[j] = false := by
  rw [State.lowestKey, scanKeys_eq_some]
  constructor
  · rintro ⟨-, h, h1, h2⟩
    refine ⟨⟨m, by simpa using h⟩, rfl, by simpa using h1, fun j hj => ?_⟩
    simpa using h2 j.val (Fin.lt_def.1 hj)
  · rintro ⟨k, rfl, h1, h2⟩
    refine ⟨by omega, by simp, by simpa using h1, fun j hj => ?_⟩
    have hk := k.isLt
    simpa using h2 ⟨j, by omega⟩ (by simpa [Fin.lt_def] using hj)

end Sys2Proof.Machine
end

