-- ==== Sys2Proof/Laws/Draw.lean ====
section
/-! SUPPORT. The sprite loop pixel by pixel: since no two bits of a sprite share a target (R107: "one Dxyn touches each pixel at
most once"), a pixel ends toggled exactly when some set bit falls on it, and a collision is a set bit that falls on a pixel that
was on before the draw. -/

namespace Sys2Proof.Machine

/-! ### One pixel -/

@[simp] theorem pixelOf_setPixel (d : Display) (p q : Pixel) (b : Bool) :
    pixelOf (setPixel d p b) q = if q = p then b else pixelOf d q := by
  unfold pixelOf setPixel
  by_cases hy : p.2.val = q.2.val
  · by_cases hx : p.1.val = q.1.val
    · have : q = p := Prod.ext (Fin.ext hx.symm) (Fin.ext hy.symm)
      simp [this]
    · have : q ≠ p := fun e => hx (by rw [e])
      simp [this, hy, hx]
  · have : q ≠ p := fun e => hy (by rw [e])
    simp [this, hy]

/-- Displays are equal when every pixel is. -/
theorem display_ext {d e : Display} (h : ∀ p, pixelOf d p = pixelOf e p) : d = e := by
  apply Vector.ext
  intro y hy
  apply Vector.ext
  intro x hx
  exact h (⟨x, hx⟩, ⟨y, hy⟩)

@[simp] theorem pixelOf_blankDisplay (p : Pixel) : pixelOf blankDisplay p = false := by
  simp [pixelOf, blankDisplay]

/-- A sprite bit toggles its target and nothing else. -/
theorem pixelOf_plot (c : Canvas) (t : Option Pixel) (q : Pixel) :
    pixelOf (plot c t).disp q = (pixelOf c.disp q ^^ decide (t = some q)) := by
  cases t with
  | none => simp [plot]
  | some p =>
    by_cases hq : q = p
    · subst hq
      cases h : pixelOf c.disp q <;> simp [plot, h]
    · have : ¬ p = q := fun e => hq e.symm
      cases h : pixelOf c.disp p <;> simp [plot, h, hq, this]

/-- A collision is a target that was on. -/
theorem hit_plot (c : Canvas) (t : Option Pixel) :
    (plot c t).hit = true ↔ c.hit = true ∨ ∃ p, t = some p ∧ pixelOf c.disp p = true := by
  cases t with
  | none => simp [plot]
  | some p => cases h : pixelOf c.disp p <;> simp [plot, h]

/-! ### A list of targets with no target twice -/

/-- Plotting targets that are all different toggles each of them once, and collides exactly where one was on at the start. -/
theorem foldl_plot (ts : List (Option Pixel)) (hts : ts.Pairwise (fun t u => ∀ p, t = some p → u ≠ some p)) (c : Canvas) :
    (∀ q, pixelOf (ts.foldl plot c).disp q = (pixelOf c.disp q ^^ decide (some q ∈ ts))) ∧
    ((ts.foldl plot c).hit = true ↔ c.hit = true ∨ ∃ q, some q ∈ ts ∧ pixelOf c.disp q = true) := by
  induction ts generalizing c with
  | nil => simp
  | cons t ts ih =>
    rw [List.pairwise_cons] at hts
    obtain ⟨ih1, ih2⟩ := ih hts.2 (plot c t)
    have fresh : ∀ q, some q ∈ ts → t ≠ some q := fun q hq e => hts.1 _ hq q e rfl
    refine ⟨fun q => ?_, ?_⟩
    · rw [List.foldl_cons, ih1, pixelOf_plot]
      by_cases hq : some q ∈ ts
      · simp [hq, fresh q hq]
      · simp [hq, eq_comm]
    · rw [List.foldl_cons, ih2, hit_plot]
      constructor
      · rintro ((h | ⟨p, hp, h⟩) | ⟨q, hq, h⟩)
        · exact .inl h
        · exact .inr ⟨p, by simp [hp], h⟩
        · exact .inr ⟨q, by simp [hq], by simpa [pixelOf_plot, fresh q hq] using h⟩
      · rintro (h | ⟨q, hq, h⟩)
        · exact .inl (.inl h)
        · rcases List.mem_cons.1 hq with e | hq
          · exact .inl (.inr ⟨q, e.symm, h⟩)
          · exact .inr ⟨q, hq, by simpa [pixelOf_plot, fresh q hq] using h⟩

/-! ### The sprite as its list of targets -/

/-- The targets of the set bits of one sprite row, in the order they are drawn. -/
def rowTargets (pol : EdgePolicy) (px py row : Nat) (b : Byte) : List (Option Pixel) :=
  ((List.range 8).filter fun col => b.getLsbD (7 - col)).map fun col => target pol px py col row

/-- The targets of the set bits of all rows from `row` on. -/
def spriteTargets (pol : EdgePolicy) (px py : Nat) : Nat → List Byte → List (Option Pixel)
  | _, [] => []
  | row, b :: bs => rowTargets pol px py row b ++ spriteTargets pol px py (row + 1) bs

theorem drawRow_eq (pol : EdgePolicy) (px py row : Nat) (b : Byte) (c : Canvas) :
    drawRow pol px py row b c = (rowTargets pol px py row b).foldl plot c := by
  rw [rowTargets, List.foldl_map, List.foldl_filter]
  rfl

theorem drawRows_eq (pol : EdgePolicy) (px py row : Nat) (bs : List Byte) (c : Canvas) :
    drawRows pol px py row bs c = (spriteTargets pol px py row bs).foldl plot c := by
  induction bs generalizing row c with
  | nil => rfl
  | cons b bs ih => rw [drawRows, ih, drawRow_eq, spriteTargets, List.foldl_append]

theorem mem_spriteTargets {pol : EdgePolicy} {px py row : Nat} {bs : List Byte} {t : Option Pixel} :
    t ∈ spriteTargets pol px py row bs ↔
      ∃ k, ∃ h : k < bs.length, ∃ col < 8, (bs[k]).getLsbD (7 - col) = true ∧ t = target pol px py col (row + k) := by
  induction bs generalizing row with
  | nil => simp [spriteTargets]
  | cons b bs ih =>
    simp only [spriteTargets, List.mem_append, ih, rowTargets, List.mem_map, List.mem_filter, List.mem_range]
    constructor
    · rintro (⟨col, ⟨hc, hb⟩, e⟩ | ⟨k, hk, col, hc, hb, e⟩)
      · exact ⟨0, by simp, col, hc, hb, e.symm⟩
      · exact ⟨k + 1, by simpa using hk, col, hc, by simpa using hb, by rw [e]; congr 1; omega⟩
    · rintro ⟨k, hk, col, hc, hb, e⟩
      cases k with
      | zero => exact .inl ⟨col, ⟨hc, by simpa using hb⟩, e.symm⟩
      | succ k => exact .inr ⟨k, by simpa using hk, col, hc, by simpa using hb, by rw [e]; congr 1; omega⟩

/-- Two bits with one target are one bit: fewer than 32 rows and 8 columns never meet themselves (R107). -/
theorem target_inj {pol : EdgePolicy} {px py col row col' row' : Nat} {p : Pixel} (hc : col < 8) (hc' : col' < 8)
    (hr : row < 32) (hr' : row' < 32) (h : target pol px py col row = some p) (h' : target pol px py col' row' = some p) :
    col = col' ∧ row = row' := by
  cases pol with
  | clip =>
    unfold target at h h'
    simp only [Option.dite_none_right_eq_some, Option.some.injEq] at h h'
    obtain ⟨_, e⟩ := h
    obtain ⟨_, e'⟩ := h'
    rw [← e'] at e
    simp only [Prod.mk.injEq, Fin.mk.injEq] at e
    omega
  | wrap =>
    simp only [target, Option.some.injEq] at h h'
    subst h
    simp only [Prod.mk.injEq, Fin.mk.injEq] at h'
    omega

theorem pairwise_spriteTargets (pol : EdgePolicy) (px py row : Nat) (bs : List Byte) (h : row + bs.length ≤ 32) :
    (spriteTargets pol px py row bs).Pairwise (fun t u => ∀ p, t = some p → u ≠ some p) := by
  induction bs generalizing row with
  | nil => exact List.Pairwise.nil
  | cons b bs ih =>
    simp only [List.length_cons] at h
    refine List.pairwise_append.2 ⟨?_, ih (row + 1) (by omega), ?_⟩
    · rw [rowTargets, List.pairwise_map]
      have := (List.pairwise_lt_range (n := 8)).sublist
        (List.filter_sublist (p := fun col => b.getLsbD (7 - col)))
      refine this.imp_of_mem ?_
      intro c d hc hd hlt p e e'
      have hc := (List.mem_filter.1 hc).1
      have hd := (List.mem_filter.1 hd).1
      rw [List.mem_range] at hc hd
      have := (target_inj hc hd (by omega) (by omega) e e').1
      omega
    · intro t ht u hu p e e'
      simp only [rowTargets, List.mem_map, List.mem_filter, List.mem_range] at ht
      obtain ⟨c, ⟨hc, -⟩, rfl⟩ := ht
      obtain ⟨k, hk, d, hd, -, rfl⟩ := mem_spriteTargets.1 hu
      have := (target_inj hc hd (by omega) (by omega) e e').2
      omega

/-- The sprite engine in one sentence: a pixel is toggled exactly when it is a target, and a collision is a target that was on. -/
theorem drawSprite_spec (pol : EdgePolicy) (vx vy : Byte) (bs : List Byte) (d : Display) (h : bs.length ≤ 32) :
    (∀ q, pixelOf (drawSprite pol vx vy bs d).disp q =
      (pixelOf d q ^^ decide (some q ∈ spriteTargets pol (vx.toNat % 64) (vy.toNat % 32) 0 bs))) ∧
    ((drawSprite pol vx vy bs d).hit = true ↔
      ∃ q, some q ∈ spriteTargets pol (vx.toNat % 64) (vy.toNat % 32) 0 bs ∧ pixelOf d q = true) := by
  rw [drawSprite, drawRows_eq]
  have := foldl_plot _ (pairwise_spriteTargets pol (vx.toNat % 64) (vy.toNat % 32) 0 bs (by omega)) ⟨d, false⟩
  simpa using this

end Sys2Proof.Machine
end

