-- ==== Sys2Proof/Laws/Exec.lean ====
section
/-! SUPPORT. The meanings that can raise or wait: everything each can answer, said once. The other meanings answer one update of
the state, by unfolding. -/

namespace Sys2Proof.Machine

/-- 00EE pops, or underflows. -/
theorem exec_ret_cases (s : State) :
    (∃ k : Fin 16, s.sp.val = k.val + 1 ∧
      exec .ret s = .next { s with sp := ⟨k.val, by omega⟩, pc := s.stack[k] }) ∨
    (s.sp.val = 0 ∧ exec .ret s = .next (s.latch .stackUnderflow)) := by
  rcases s.pop_cases with ⟨k, hk, h⟩ | ⟨hk, h⟩
  · exact .inl ⟨k, hk, by rw [exec, execRet, h, orRaise_ok]⟩
  · exact .inr ⟨hk, by rw [exec, execRet, h, orRaise_error]⟩

/-- 2nnn pushes and jumps, or overflows. -/
theorem exec_call_cases (nnn : Addr12) (s : State) :
    (∃ h : s.sp.val < 16, exec (.call nnn) s = .next
      { s with stack := s.stack.set s.sp.val s.pc h, sp := ⟨s.sp.val + 1, by omega⟩, pc := zext16 nnn }) ∨
    (s.sp.val = 16 ∧ exec (.call nnn) s = .next (s.latch .stackOverflow)) := by
  rcases s.push_cases with ⟨hs, h⟩ | ⟨hs, h⟩
  · exact .inl ⟨hs, by rw [exec, execCall, h, orRaise_ok]; rfl⟩
  · exact .inr ⟨hs, by rw [exec, execCall, h, orRaise_error]⟩

/-- Ex9E skips by the latch, or raises on its key index. -/
theorem exec_skp_cases (x : Reg) (s : State) :
    (∃ k : Fin 16, (s.reg x).toNat = k.val ∧ exec (.skp x) s = .next (s.skipIf s.key[k])) ∨
    ((s.reg x).toNat > 15 ∧ exec (.skp x) s = .next (s.latch (.keyIndexOutOfRange (s.reg x)))) := by
  rcases s.keyAt_cases (s.reg x) with ⟨k, hk, h⟩ | ⟨hk, h⟩
  · exact .inl ⟨k, hk, by rw [exec, execSkp, h, orRaise_ok]⟩
  · exact .inr ⟨hk, by rw [exec, execSkp, h, orRaise_error]⟩

/-- ExA1 skips by the latch, or raises on its key index. -/
theorem exec_sknp_cases (x : Reg) (s : State) :
    (∃ k : Fin 16, (s.reg x).toNat = k.val ∧ exec (.sknp x) s = .next (s.skipIf (!s.key[k]))) ∨
    ((s.reg x).toNat > 15 ∧ exec (.sknp x) s = .next (s.latch (.keyIndexOutOfRange (s.reg x)))) := by
  rcases s.keyAt_cases (s.reg x) with ⟨k, hk, h⟩ | ⟨hk, h⟩
  · exact .inl ⟨k, hk, by rw [exec, execSknp, h, orRaise_ok]⟩
  · exact .inr ⟨hk, by rw [exec, execSknp, h, orRaise_error]⟩

/-- Fx33 stores the digits, or raises on the lowest bad address. -/
theorem exec_ldB_cases (x : Reg) (s : State) :
    (firstOutOfBounds s.i.toNat 3 = none ∧
      exec (.ldB x) s = .next (s.writeBytes s.i.toNat (decimalDigits (s.reg x)))) ∨
    ∃ bad, firstOutOfBounds s.i.toNat 3 = some bad ∧ exec (.ldB x) s = .next (s.latch (.memOutOfBounds bad)) := by
  rcases s.memWrite_cases s.i.toNat (decimalDigits (s.reg x)) with ⟨hb, h⟩ | ⟨bad, hb, h⟩
  · exact .inl ⟨hb, by rw [exec, execLdB, h, orRaise_ok]⟩
  · exact .inr ⟨bad, hb, by rw [exec, execLdB, h, orRaise_error]⟩

/-- Fx55 stores the registers and moves `I`, or raises on the lowest bad address. -/
theorem exec_stRegs_cases (x : Reg) (s : State) :
    (firstOutOfBounds s.i.toNat (x.toNat + 1) = none ∧
      exec (.stRegs x) s = .next ((s.writeBytes s.i.toNat (s.regsUpTo x)).setIndex (indexPast s.i x))) ∨
    ∃ bad, firstOutOfBounds s.i.toNat (x.toNat + 1) = some bad ∧
      exec (.stRegs x) s = .next (s.latch (.memOutOfBounds bad)) := by
  have hl := s.length_regsUpTo x
  rcases s.memWrite_cases s.i.toNat (s.regsUpTo x) with ⟨hb, h⟩ | ⟨bad, hb, h⟩
  · exact .inl ⟨by rwa [hl] at hb, by rw [exec, execStRegs, h, orRaise_ok]⟩
  · exact .inr ⟨bad, by rwa [hl] at hb, by rw [exec, execStRegs, h, orRaise_error]⟩

/-- Fx65 loads the registers and moves `I`, or raises on the lowest bad address. -/
theorem exec_ldRegs_cases (x : Reg) (s : State) :
    (firstOutOfBounds s.i.toNat (x.toNat + 1) = none ∧
      exec (.ldRegs x) s =
        .next ((s.setRegsFrom 0 (s.readBytes s.i.toNat (x.toNat + 1))).setIndex (indexPast s.i x))) ∨
    ∃ bad, firstOutOfBounds s.i.toNat (x.toNat + 1) = some bad ∧
      exec (.ldRegs x) s = .next (s.latch (.memOutOfBounds bad)) := by
  rcases s.memRead_cases s.i.toNat (x.toNat + 1) with ⟨hb, h⟩ | ⟨bad, hb, h⟩
  · exact .inl ⟨hb, by rw [exec, execLdRegs, h, orRaise_ok]⟩
  · exact .inr ⟨bad, hb, by rw [exec, execLdRegs, h, orRaise_error]⟩

/-- Dxyn waits without the permit; with it, it draws, or raises on the lowest bad address. -/
theorem exec_drw_cases (x y : Reg) (n : Nibble) (s : State) :
    (s.permit = false ∧ exec (.drw x y n) s = .next s.rewind) ∨
    (s.permit = true ∧ firstOutOfBounds s.i.toNat n.toNat = none ∧ exec (.drw x y n) s = .next
      (s.finishDraw (drawSprite s.cfg.edgePolicy (s.reg x) (s.reg y) (s.readBytes s.i.toNat n.toNat) s.disp))) ∨
    (s.permit = true ∧ ∃ bad, firstOutOfBounds s.i.toNat n.toNat = some bad ∧
      exec (.drw x y n) s = .next (s.latch (.memOutOfBounds bad))) := by
  cases hp : s.permit with
  | false => exact .inl ⟨rfl, by simp [exec, execDrw, hp]⟩
  | true =>
    rcases s.memRead_cases s.i.toNat n.toNat with ⟨hb, h⟩ | ⟨bad, hb, h⟩
    · exact .inr (.inl ⟨rfl, hb, by simp [exec, execDrw, hp, h]⟩)
    · exact .inr (.inr ⟨rfl, bad, hb, by simp [exec, execDrw, hp, h]⟩)

/-- Fx0A waits with no key down; else it commits the lowest pressed key. -/
theorem exec_ldVxK_cases (x : Reg) (s : State) :
    (s.lowestKey = none ∧ exec (.ldVxK x) s = .next s.rewind) ∨
    ∃ k, s.lowestKey = some k ∧ exec (.ldVxK x) s = .next
      (if s.cfg.keyWaitClears then (s.setReg x (BitVec.ofNat 8 k)).setKeyCell k false
       else s.setReg x (BitVec.ofNat 8 k)) := by
  cases h : s.lowestKey with
  | none => exact .inl ⟨rfl, by simp [exec, execLdVxK, h]⟩
  | some k => exact .inr ⟨k, rfl, by simp [exec, execLdVxK, h]⟩

end Sys2Proof.Machine
end

