-- ==== Sys2Proof/Laws/PerInstr.lean ====
section
/-! SUPPORT. The family `OwnRow`: each instruction's word selects its own row of the opcode map (R48), whatever its operands. -/

namespace Sys2Proof.Laws.OwnRow

/-- The opcode-map row of an instruction's constructor (R48). -/
def row : Instr → OpRow
  | .cls => ⟨"CLS", 0x00E0, 0xFFFF⟩
  | .ret => ⟨"RET", 0x00EE, 0xFFFF⟩
  | .jp _ => ⟨"JP", 0x1000, 0xF000⟩
  | .call _ => ⟨"CALL", 0x2000, 0xF000⟩
  | .seImm _ _ => ⟨"SE_IMM", 0x3000, 0xF000⟩
  | .sneImm _ _ => ⟨"SNE_IMM", 0x4000, 0xF000⟩
  | .seReg _ _ => ⟨"SE_REG", 0x5000, 0xF00F⟩
  | .ldImm _ _ => ⟨"LD_IMM", 0x6000, 0xF000⟩
  | .addImm _ _ => ⟨"ADD_IMM", 0x7000, 0xF000⟩
  | .ldReg _ _ => ⟨"LD_REG", 0x8000, 0xF00F⟩
  | .orReg _ _ => ⟨"OR", 0x8001, 0xF00F⟩
  | .andReg _ _ => ⟨"AND", 0x8002, 0xF00F⟩
  | .xorReg _ _ => ⟨"XOR", 0x8003, 0xF00F⟩
  | .addReg _ _ => ⟨"ADD_REG", 0x8004, 0xF00F⟩
  | .sub _ _ => ⟨"SUB", 0x8005, 0xF00F⟩
  | .shr _ _ => ⟨"SHR", 0x8006, 0xF00F⟩
  | .subn _ _ => ⟨"SUBN", 0x8007, 0xF00F⟩
  | .shl _ _ => ⟨"SHL", 0x800E, 0xF00F⟩
  | .sneReg _ _ => ⟨"SNE_REG", 0x9000, 0xF00F⟩
  | .ldI _ => ⟨"LD_I", 0xA000, 0xF000⟩
  | .jpV0 _ => ⟨"JP_V0", 0xB000, 0xF000⟩
  | .rnd _ _ => ⟨"RND", 0xC000, 0xF000⟩
  | .drw _ _ _ => ⟨"DRW", 0xD000, 0xF000⟩
  | .skp _ => ⟨"SKP", 0xE09E, 0xF0FF⟩
  | .sknp _ => ⟨"SKNP", 0xE0A1, 0xF0FF⟩
  | .ldVxDt _ => ⟨"LD_VX_DT", 0xF007, 0xF0FF⟩
  | .ldVxK _ => ⟨"LD_VX_K", 0xF00A, 0xF0FF⟩
  | .ldDtVx _ => ⟨"LD_DT_VX", 0xF015, 0xF0FF⟩
  | .ldStVx _ => ⟨"LD_ST_VX", 0xF018, 0xF0FF⟩
  | .addI _ => ⟨"ADD_I", 0xF01E, 0xF0FF⟩
  | .ldF _ => ⟨"LD_F", 0xF029, 0xF0FF⟩
  | .ldB _ => ⟨"LD_B", 0xF033, 0xF0FF⟩
  | .stRegs _ => ⟨"ST_REGS", 0xF055, 0xF0FF⟩
  | .ldRegs _ => ⟨"LD_REGS", 0xF065, 0xF0FF⟩

/-- The row is one of the 34, and the instruction's word selects it. -/
def Statement (i : Instr) : Prop := row i ∈ opcodeTable ∧ (row i).selects (encode i) = true

theorem cls : Statement .cls := ⟨of_decide_eq_true rfl, by decide⟩
theorem ret : Statement .ret := ⟨of_decide_eq_true rfl, by decide⟩
theorem jp (nnn : Addr12) : Statement (.jp nnn) := ⟨of_decide_eq_true rfl, beq_iff_eq.2 ((formatNNN_mask _ nnn).trans rfl)⟩
theorem call (nnn : Addr12) : Statement (.call nnn) := ⟨of_decide_eq_true rfl, beq_iff_eq.2 ((formatNNN_mask _ nnn).trans rfl)⟩
theorem seImm (x : Reg) (kk : Byte) : Statement (.seImm x kk) := ⟨of_decide_eq_true rfl, beq_iff_eq.2 ((formatXKK_mask _ x kk).trans rfl)⟩
theorem sneImm (x : Reg) (kk : Byte) : Statement (.sneImm x kk) := ⟨of_decide_eq_true rfl, beq_iff_eq.2 ((formatXKK_mask _ x kk).trans rfl)⟩
theorem seReg (x y : Reg) : Statement (.seReg x y) := ⟨of_decide_eq_true rfl, beq_iff_eq.2 ((formatXYN_maskLow _ x y _).trans rfl)⟩
theorem ldImm (x : Reg) (kk : Byte) : Statement (.ldImm x kk) := ⟨of_decide_eq_true rfl, beq_iff_eq.2 ((formatXKK_mask _ x kk).trans rfl)⟩
theorem addImm (x : Reg) (kk : Byte) : Statement (.addImm x kk) := ⟨of_decide_eq_true rfl, beq_iff_eq.2 ((formatXKK_mask _ x kk).trans rfl)⟩
theorem ldReg (x y : Reg) : Statement (.ldReg x y) := ⟨of_decide_eq_true rfl, beq_iff_eq.2 ((formatXYN_maskLow _ x y _).trans rfl)⟩
theorem orReg (x y : Reg) : Statement (.orReg x y) := ⟨of_decide_eq_true rfl, beq_iff_eq.2 ((formatXYN_maskLow _ x y _).trans rfl)⟩
theorem andReg (x y : Reg) : Statement (.andReg x y) := ⟨of_decide_eq_true rfl, beq_iff_eq.2 ((formatXYN_maskLow _ x y _).trans rfl)⟩
theorem xorReg (x y : Reg) : Statement (.xorReg x y) := ⟨of_decide_eq_true rfl, beq_iff_eq.2 ((formatXYN_maskLow _ x y _).trans rfl)⟩
theorem addReg (x y : Reg) : Statement (.addReg x y) := ⟨of_decide_eq_true rfl, beq_iff_eq.2 ((formatXYN_maskLow _ x y _).trans rfl)⟩
theorem sub (x y : Reg) : Statement (.sub x y) := ⟨of_decide_eq_true rfl, beq_iff_eq.2 ((formatXYN_maskLow _ x y _).trans rfl)⟩
theorem shr (x y : Reg) : Statement (.shr x y) := ⟨of_decide_eq_true rfl, beq_iff_eq.2 ((formatXYN_maskLow _ x y _).trans rfl)⟩
theorem subn (x y : Reg) : Statement (.subn x y) := ⟨of_decide_eq_true rfl, beq_iff_eq.2 ((formatXYN_maskLow _ x y _).trans rfl)⟩
theorem shl (x y : Reg) : Statement (.shl x y) := ⟨of_decide_eq_true rfl, beq_iff_eq.2 ((formatXYN_maskLow _ x y _).trans rfl)⟩
theorem sneReg (x y : Reg) : Statement (.sneReg x y) := ⟨of_decide_eq_true rfl, beq_iff_eq.2 ((formatXYN_maskLow _ x y _).trans rfl)⟩
theorem ldI (nnn : Addr12) : Statement (.ldI nnn) := ⟨of_decide_eq_true rfl, beq_iff_eq.2 ((formatNNN_mask _ nnn).trans rfl)⟩
theorem jpV0 (nnn : Addr12) : Statement (.jpV0 nnn) := ⟨of_decide_eq_true rfl, beq_iff_eq.2 ((formatNNN_mask _ nnn).trans rfl)⟩
theorem rnd (x : Reg) (kk : Byte) : Statement (.rnd x kk) := ⟨of_decide_eq_true rfl, beq_iff_eq.2 ((formatXKK_mask _ x kk).trans rfl)⟩
theorem drw (x y : Reg) (n : Nibble) : Statement (.drw x y n) := ⟨of_decide_eq_true rfl, beq_iff_eq.2 ((formatXYN_mask _ x y n).trans rfl)⟩
theorem skp (x : Reg) : Statement (.skp x) := ⟨of_decide_eq_true rfl, beq_iff_eq.2 ((formatXKK_maskLow _ x _).trans rfl)⟩
theorem sknp (x : Reg) : Statement (.sknp x) := ⟨of_decide_eq_true rfl, beq_iff_eq.2 ((formatXKK_maskLow _ x _).trans rfl)⟩
theorem ldVxDt (x : Reg) : Statement (.ldVxDt x) := ⟨of_decide_eq_true rfl, beq_iff_eq.2 ((formatXKK_maskLow _ x _).trans rfl)⟩
theorem ldVxK (x : Reg) : Statement (.ldVxK x) := ⟨of_decide_eq_true rfl, beq_iff_eq.2 ((formatXKK_maskLow _ x _).trans rfl)⟩
theorem ldDtVx (x : Reg) : Statement (.ldDtVx x) := ⟨of_decide_eq_true rfl, beq_iff_eq.2 ((formatXKK_maskLow _ x _).trans rfl)⟩
theorem ldStVx (x : Reg) : Statement (.ldStVx x) := ⟨of_decide_eq_true rfl, beq_iff_eq.2 ((formatXKK_maskLow _ x _).trans rfl)⟩
theorem addI (x : Reg) : Statement (.addI x) := ⟨of_decide_eq_true rfl, beq_iff_eq.2 ((formatXKK_maskLow _ x _).trans rfl)⟩
theorem ldF (x : Reg) : Statement (.ldF x) := ⟨of_decide_eq_true rfl, beq_iff_eq.2 ((formatXKK_maskLow _ x _).trans rfl)⟩
theorem ldB (x : Reg) : Statement (.ldB x) := ⟨of_decide_eq_true rfl, beq_iff_eq.2 ((formatXKK_maskLow _ x _).trans rfl)⟩
theorem stRegs (x : Reg) : Statement (.stRegs x) := ⟨of_decide_eq_true rfl, beq_iff_eq.2 ((formatXKK_maskLow _ x _).trans rfl)⟩
theorem ldRegs (x : Reg) : Statement (.ldRegs x) := ⟨of_decide_eq_true rfl, beq_iff_eq.2 ((formatXKK_maskLow _ x _).trans rfl)⟩

end Sys2Proof.Laws.OwnRow
end

