-- ==== Sys2Proof/Laws/Step.lean ====
section
/-! SUPPORT. What a fetch and a step can do, said once. -/

namespace Sys2Proof.Machine

/-- A fetch answers the two bytes at `pc`, or the lowest of the two addresses that is out of bounds (R61). -/
theorem State.fetch_cases (s : State) :
    (s.fetchable ∧ s.fetch = .ok [s.readByte s.pc.toNat, s.readByte (s.pc.toNat + 1)]) ∨
    (0xFFF ≤ s.pc.toNat ∧
      s.fetch = .error (.memOutOfBounds (if 4096 ≤ s.pc.toNat then s.pc.toNat else s.pc.toNat + 1))) := by
  by_cases h : s.pc.toNat < 0xFFF
  · exact .inl ⟨h, s.memRead_ok (.inr (by simp only [memSize]; omega))⟩
  · refine .inr ⟨by omega, ?_⟩
    rcases s.memRead_cases s.pc.toNat 2 with ⟨h1, -⟩ | ⟨bad, h1, h2⟩
    · rw [firstOutOfBounds_eq_none] at h1
      simp only [memSize] at h1
      omega
    · rw [firstOutOfBounds_eq_some] at h1
      obtain ⟨h3, h4, h5, h6⟩ := h1
      have h7 := h6 s.pc.toNat (Nat.le_refl _)
      rw [State.fetch, h2]
      simp only [memSize] at h5 h7
      congr 2
      split <;> omega

/-- One step, four ways (R60): nothing on a latched error, a fetch fault, the decoded instruction on the advanced `pc`, or the
advance alone for an undefined encoding. -/
theorem step_cases (s : State) :
    (∃ e, s.err = some e ∧ step s = .next s) ∨
    (s.live ∧ 0xFFF ≤ s.pc.toNat ∧
      step s = .next (s.latch (.memOutOfBounds (if 4096 ≤ s.pc.toNat then s.pc.toNat else s.pc.toNat + 1)))) ∨
    (s.live ∧ s.fetchable ∧ ∃ i, decodeWord s.word = some i ∧ step s = exec i s.advance) ∨
    (s.live ∧ s.fetchable ∧ decodeWord s.word = none ∧ step s = .next s.advance) := by
  unfold step
  cases he : s.err with
  | some e => exact .inl ⟨e, rfl, rfl⟩
  | none =>
    rcases s.fetch_cases with ⟨h, hf⟩ | ⟨h, hf⟩
    · rw [hf]
      cases hd : decodeWord s.word with
      | some i => exact .inr (.inr (.inl ⟨he, h, i, rfl, by
          simp only [State.word] at hd
          simp only [decode, hd]⟩))
      | none => exact .inr (.inr (.inr ⟨he, h, rfl, by
          simp only [State.word] at hd
          simp only [decode, hd, undefinedEncoding]⟩))
    · exact .inr (.inl ⟨he, h, by rw [hf]; rfl⟩)

end Sys2Proof.Machine
end

