-- ==== Sys2Proof/Tests/Slice0.lean ====
section
/-! SUPPORT. The model's own tests: words written out from R48 and their decoding, ill-formed raw data refused, vectors of
spec/95_test_vectors.md one step each (the vector's id in the name), and witnesses for the hypotheses of the statements. -/

namespace Sys2Proof.Tests

open Sys2Proof.Machine

/-! ### Raw data that a check refuses -/

/-- A value outside its mask is no row. -/
theorem test_row_outside_mask : (OpRow.mk "BAD" 0x5001 0xF000).wellFormed = false := by decide
theorem test_rows_well_formed : opcodeTable.all OpRow.wellFormed = true := by decide
/-- No two rows share a word (R48), and a row shares its words with itself. -/
theorem test_rows_disjoint : opcodeTable.Pairwise (fun r q => r.overlaps q = false) := by decide
theorem test_row_overlaps_itself : (OpRow.mk "JP" 0x1000 0xF000).overlaps (OpRow.mk "SYS" 0x1234 0xFFFF) = true := by decide
theorem test_word_5121_undefined : wordDefined 0x5121 = false := by decide
theorem test_word_5120_defined : wordDefined 0x5120 = true := by decide
/-- L1, L2: an image of 3584 bytes fits, one of 3585 does not. -/
theorem test_image_3585_refused : imageFits (List.replicate 3585 0xAB) = false := by rw [imageFits, List.length_replicate]; decide
theorem test_image_3584_fits : imageFits (List.replicate 3584 0xAB) = true := by rw [imageFits, List.length_replicate]; decide
theorem test_decode_truncated : decode [0x12] = .error .truncated := by decide
theorem test_decode_undefined : decode [0x51, 0x21, 0x60] = .error (.undefinedEncoding 0x5121) := by decide

/-! ### One word for each constructor, written out from R48 -/

theorem test_decode_cls : decode [0x00, 0xE0] = .ok (.cls, []) := by decide
theorem test_decode_ret : decode [0x00, 0xEE] = .ok (.ret, []) := by decide
theorem test_decode_jp : decodeWord 0b0001001000000001#16 = some (.jp 0x201) := by decide
theorem test_decode_call : decodeWord 0b0010001000010000#16 = some (.call 0x210) := by decide
theorem test_decode_seImm : decodeWord 0b0011001100101010#16 = some (.seImm 3 0x2A) := by decide
theorem test_decode_sneImm : decodeWord 0b0100001100101010#16 = some (.sneImm 3 0x2A) := by decide
theorem test_decode_seReg : decodeWord 0b0101000100100000#16 = some (.seReg 1 2) := by decide
theorem test_decode_ldImm : decodeWord 0b0110101001011010#16 = some (.ldImm 0xA 0x5A) := by decide
theorem test_decode_addImm : decodeWord 0b0111000011111111#16 = some (.addImm 0 0xFF) := by decide
theorem test_decode_ldReg : decodeWord 0b1000000100100000#16 = some (.ldReg 1 2) := by decide
theorem test_decode_orReg : decodeWord 0b1000000100100001#16 = some (.orReg 1 2) := by decide
theorem test_decode_andReg : decodeWord 0b1000000100100010#16 = some (.andReg 1 2) := by decide
theorem test_decode_xorReg : decodeWord 0b1000000100100011#16 = some (.xorReg 1 2) := by decide
theorem test_decode_addReg : decodeWord 0b1000101010110100#16 = some (.addReg 0xA 0xB) := by decide
theorem test_decode_sub : decodeWord 0b1000000100100101#16 = some (.sub 1 2) := by decide
theorem test_decode_shr : decodeWord 0b1000000100100110#16 = some (.shr 1 2) := by decide
theorem test_decode_subn : decodeWord 0b1000000100100111#16 = some (.subn 1 2) := by decide
theorem test_decode_shl : decodeWord 0b1000000100101110#16 = some (.shl 1 2) := by decide
theorem test_decode_sneReg : decodeWord 0b1001000100100000#16 = some (.sneReg 1 2) := by decide
theorem test_decode_ldI : decodeWord 0b1010111111111111#16 = some (.ldI 0xFFF) := by decide
theorem test_decode_jpV0 : decodeWord 0b1011001011110000#16 = some (.jpV0 0x2F0) := by decide
theorem test_decode_rnd : decodeWord 0b1100001100001111#16 = some (.rnd 3 0x0F) := by decide
/-- E1: 0xD5A7 has `x = 5`, `y = 0xA`, `n = 7`. -/
theorem test_decode_drw : decodeWord 0b1101010110100111#16 = some (.drw 5 0xA 7) := by decide
theorem test_decode_skp : decodeWord 0b1110010110011110#16 = some (.skp 5) := by decide
theorem test_decode_sknp : decodeWord 0b1110010110100001#16 = some (.sknp 5) := by decide
theorem test_decode_ldVxDt : decodeWord 0b1111001000000111#16 = some (.ldVxDt 2) := by decide
theorem test_decode_ldVxK : decodeWord 0b1111001100001010#16 = some (.ldVxK 3) := by decide
theorem test_decode_ldDtVx : decodeWord 0b1111001000010101#16 = some (.ldDtVx 2) := by decide
theorem test_decode_ldStVx : decodeWord 0b1111001000011000#16 = some (.ldStVx 2) := by decide
theorem test_decode_addI : decodeWord 0b1111000100011110#16 = some (.addI 1) := by decide
theorem test_decode_ldF : decodeWord 0b1111010000101001#16 = some (.ldF 4) := by decide
theorem test_decode_ldB : decodeWord 0b1111010100110011#16 = some (.ldB 5) := by decide
theorem test_decode_stRegs : decodeWord 0b1111001001010101#16 = some (.stRegs 2) := by decide
theorem test_decode_ldRegs : decodeWord 0b1111110001100101#16 = some (.ldRegs 0xC) := by decide
/-- E3: later dialects' words and near misses are no instruction. -/
theorem test_decode_none : ([0x0000, 0x0123, 0x9ABF, 0x8128, 0x812F, 0xE19F, 0xF10B, 0xF175, 0xF185].map fun w => decodeWord w)
    = List.replicate 9 none := by decide
theorem test_decodeTableWord : decodeTableWord 16 0xDAB5 = some (.drw 0xA 0xB 5) := by decide
theorem test_encode_ldRegs : encodeBytes (.ldRegs 0xC) = [0xFC, 0x65] := by decide

/-! ### One step -/

/-- The state after one step. -/
def step1 (s : State) : State := (performStep s).1

/-- The word `w` at address `a`, with `pc` there; everything else as in `s`. -/
def at' (s : State) (a : Word) (w : Nat) : State := (s.setPc a).withFetchWord 16 w

/-- The reset state with `V1`, `V2` and `VF` as given. -/
def regs (v1 v2 vf : Byte) : State := ((State.reset.setReg 1 v1).setReg 2 v2).setReg 15 vf

/-- `V1` and `VF` after one step of `w` at 0x200. -/
def alu (v1 v2 vf : Byte) (w : Nat) : Byte × Byte := let t := step1 (at' (regs v1 v2 vf) 0x200 w); (t.reg 1, t.reg 15)

theorem test_E3_no_skip : (step1 (at' (regs 7 7 0) 0x200 0x5121)).pc = 0x202 := by decide
theorem test_C1_odd_pc : (step1 (at' State.reset 0x201 0x6A5A)).reg 0xA = 0x5A := by decide
theorem test_C5_fetch : (step1 (State.reset.setPc 0xFFF)).err = some (.memOutOfBounds 0x1000) := by decide
theorem test_C6_fetch : (step1 (State.reset.setPc 0x1234)).err = some (.memOutOfBounds 0x1234) := by decide
theorem test_C8_latched : (let t := step1 (at' State.reset 0x200 0x00EE); (performStep t).2) = .stepError .stackUnderflow := by decide

def withStack (sp : Fin 17) (k : Fin 16) (w : Word) : State := { State.reset with sp := sp, stack := State.reset.stack.set k w }

theorem test_F1_ret : (let t := step1 (at' (withStack 1 0 0x206) 0x212 0x00EE); (t.pc, t.sp, t.stack[0])) = (0x206, 0, 0x206) := by decide
theorem test_F2_ret : (let t := step1 (at' State.reset 0x212 0x00EE); (t.pc, t.err)) = (0x214, some .stackUnderflow) := by decide
theorem test_F5_jp : (step1 (at' State.reset 0x200 0x1201)).pc = 0x201 := by decide
theorem test_F7_call : (let t := step1 (at' (withStack 15 0 0) 0x204 0x2210); (t.pc, t.sp, t.stack[15])) = (0x210, 16, 0x206) := by decide
theorem test_F8_call : (let t := step1 (at' (withStack 16 0 0) 0x204 0x2210); (t.pc, t.sp, t.err)) = (0x206, 16, some .stackOverflow) := by decide
theorem test_F9_seImm : (step1 (at' (State.reset.setReg 3 0x2A) 0x240 0x332A)).pc = 0x244 := by decide
theorem test_F10_seImm : (step1 (at' (State.reset.setReg 3 0x2B) 0x240 0x332A)).pc = 0x242 := by decide
theorem test_F11_sneImm : (step1 (at' (State.reset.setReg 3 0x2A) 0x240 0x432A)).pc = 0x242 := by decide
theorem test_F12_sneImm : (step1 (at' State.reset 0x240 0x432A)).pc = 0x244 := by decide
theorem test_F14_seReg : (step1 (at' (regs 7 7 0) 0x300 0x5120)).pc = 0x304 := by decide
theorem test_F15_seReg : (step1 (at' (regs 7 8 0) 0x300 0x5120)).pc = 0x302 := by decide
theorem test_F16_sneReg : (step1 (at' (regs 7 8 0) 0x300 0x9120)).pc = 0x304 := by decide
theorem test_F19_sneReg : (step1 (at' (regs 9 0 0) 0x300 0x9110)).pc = 0x302 := by decide
theorem test_F21_jpV0 : (step1 (at' ((State.reset.setReg 0 0x10).setReg 2 0x99) 0x220 0xB2F0)).pc = 0x300 := by decide
theorem test_F22_jpV0 : (step1 (at' (State.reset.setReg 0 0xFF) 0x220 0xBFFF)).pc = 0x10FE := by decide

theorem test_A1_addReg : alu 0xFF 0x01 0 0x8124 = (0x00, 1) := by decide
theorem test_A2_addReg : alu 0x80 0x7F 0 0x8124 = (0xFF, 0) := by decide
theorem test_A4_sub : alu 5 10 0 0x8125 = (0xFB, 0) := by decide
theorem test_A6_sub : alu 7 7 0 0x8125 = (0, 1) := by decide
theorem test_A8_subn : alu 5 10 0 0x8127 = (5, 1) := by decide
theorem test_A9_subn : alu 10 5 0 0x8127 = (0xFB, 0) := by decide
theorem test_A11_shr : alu 0xAA 0x05 0 0x8126 = (0x02, 1) := by decide
theorem test_A35_shr : alu 0 0 3 0x81F6 = (1, 1) := by decide
theorem test_A13_shl : alu 0 0x81 0 0x812E = (0x02, 1) := by decide
theorem test_A31_shl : (alu 0 0x81 0 0x8F2E).2 = 1 := by decide
theorem test_A16_orReg : alu 0x0F 0xF0 0x55 0x8121 = (0xFF, 0) := by decide
theorem test_A32_orReg : (alu 0 0x55 0xAA 0x8F21).2 = 0 := by decide
theorem test_A17_andReg : alu 0x3C 0x0F 0x55 0x8122 = (0x0C, 0) := by decide
theorem test_A18_xorReg : alu 0xFF 0x0F 0x55 0x8123 = (0xF0, 0) := by decide
theorem test_A19_ldReg : alu 1 0x42 9 0x8120 = (0x42, 9) := by decide
theorem test_A20_ldImm : (step1 (at' State.reset 0x200 0x6A5A)).reg 0xA = 0x5A := by decide
theorem test_A22_addImm : alu 0xFF 0 7 0x7102 = (0x01, 7) := by decide
theorem test_A23_addImm : (alu 0 0 0xFF 0x7F01).2 = 0 := by decide
/-- A25: a mask of 0 gives 0 for every random byte; A26: a mask of 0xFF gives the byte itself, whatever it is. -/
theorem test_A25_rnd : ∃ t, exec (.rnd 3 0) (State.reset.setReg 3 9) = .next t ∧ t.reg 3 = 0 := by
  refine ⟨_, rfl, ?_⟩
  simp [State.reg, State.countDraw, State.setReg]
theorem test_A26_rnd : ∃ t, exec (.rnd 3 0xFF) State.reset = .next t ∧ t.reg 3 = Config.rnd 0 := by
  refine ⟨_, rfl, ?_⟩
  simp only [State.reset]
  exact BitVec.and_allOnes

def withI (i : Word) (s : State) : State := s.setIndex i

theorem test_M1_ldI : (step1 (at' State.reset 0x200 0xAFFF)).i = 0x0FFF := by decide
theorem test_M2_addI : (let t := step1 (at' (withI 0x0FFF (regs 2 0 0x77)) 0x200 0xF11E); (t.i, t.reg 15)) = (0x1001, 0x77) := by decide
theorem test_M4_addI : (step1 (at' (withI 0xFF80 (regs 0xFF 0 0)) 0x200 0xF11E)).i = 0x007F := by decide
theorem test_M7_ldF : (step1 (at' (State.reset.setReg 4 0x0A) 0x200 0xF429)).i = 0x0082 := by decide
theorem test_M10_ldF : (step1 (at' (State.reset.setReg 4 0xFF) 0x200 0xF429)).i = 0x054B := by decide
theorem test_M17_ldB : (let t := step1 (at' (withI 0x300 (State.reset.setReg 0 234)) 0x200 0xF033);
    (t.readByte 0x300, t.readByte 0x301, t.readByte 0x302, t.i)) = (2, 3, 4, 0x300) := by decide
theorem test_M20_ldB : (let t := step1 (at' (withI 0xFFE (State.reset.setReg 0 255)) 0x200 0xF033);
    (t.err, t.readByte 0xFFE, t.pc)) = (some (.memOutOfBounds 0x1000), 0, 0x202) := by decide
theorem test_M22_stRegs : (let t := step1 (at' (withI 0x400 ((regs 0x22 0x33 0).setReg 0 0x11)) 0x200 0xF255);
    (t.readBytes 0x400 4, t.i)) = ([0x11, 0x22, 0x33, 0], 0x403) := by decide
theorem test_M25_stRegs : (let t := step1 (at' (withI 0xFF1 (regs 1 2 3)) 0x200 0xFF55);
    (t.err, t.i, t.readByte 0xFF2)) = (some (.memOutOfBounds 0x1000), 0xFF1, 0) := by decide
theorem test_M31_ldRegs : (let t := step1 (at' (withI 0x050 State.reset) 0x200 0xF465);
    (t.reg 0, t.reg 1, t.reg 4, t.i)) = (0xF0, 0x90, 0xF0, 0x055) := by decide
theorem test_M29_ldRegs : (let t := step1 (at' (withI 0xFFF (State.reset.setReg 0 7)) 0x200 0xF165);
    (t.err, t.reg 0, t.i)) = (some (.memOutOfBounds 0x1000), 7, 0xFFF) := by decide

/-- The display with the pixels of a list on. -/
def picture (ps : List Pixel) : Display := ps.foldl (fun d p => setPixel d p true) blankDisplay

/-- Sprite bytes at 0x300 with `I` there, `V0`, `V1` and `VF` as given, a permit, and the display `picture ps`. -/
def sprite (bs : List Byte) (v0 v1 vf : Byte) (ps : List Pixel) : State :=
  ((((((State.reset.writeBytes 0x300 bs).setIndex 0x300).setReg 0 v0).setReg 1 v1).setReg 15 vf).setPermit true).setDisplay (picture ps)

/-- The pixels of row `y` that are on, `VF`, the permit and `pc`, after one step of `w` at 0x200. -/
def drawn (s : State) (w : Nat) (y : Fin 32) : List Nat × Byte × Bool × Word :=
  let t := step1 (at' s 0x200 w)
  ((List.range 64).filter (fun x => pixelOf t.disp (Fin.ofNat 64 x, y)), t.reg 15, t.permit, t.pc)

theorem test_G1_cls : drawn ((sprite [] 0 0 5 [(0, 0)]).setPermit false) 0x00E0 0 = ([], 5, false, 0x202) := by decide +kernel
theorem test_G3_drw_start_wraps : drawn (sprite [0x80] 64 32 0 []) 0xD011 0 = ([0], 0, false, 0x202) := by decide +kernel
theorem test_G5_drw_collision : drawn (sprite [0x80] 5 6 0 [(5, 6)]) 0xD011 6 = ([], 1, false, 0x202) := by decide +kernel
theorem test_G9_drw_waits : drawn ((sprite [0x80] 5 6 9 []).setPermit false) 0xD011 6 = ([], 9, false, 0x200) := by decide +kernel
theorem test_G14_drw_clips : drawn (sprite [0xFF] 60 0 0 []) 0xD011 0 = ([60, 61, 62, 63], 0, false, 0x202) := by decide +kernel
/-- G19: the same parameters but `EDGE_POLICY = wrap`. -/
theorem test_G19_drw_wraps : drawn { sprite [0x0F] 60 0 0 [(0, 0)] with cfg := { defaultConfig with edgePolicy := .wrap } } 0xD011 0
    = ([1, 2, 3], 1, false, 0x202) := by decide +kernel
theorem test_G20_drw_old_vf : drawn (sprite [0x80] 0 3 7 []) 0xDF11 3 = ([7], 0, false, 0x202) := by decide +kernel
theorem test_G10_drw_fault : (let t := step1 (at' (withI 0xFFF (sprite [] 0 0 9 [])) 0x200 0xD012); (t.err, t.reg 15, t.permit))
    = (some (.memOutOfBounds 0x1000), 9, true) := by decide +kernel

theorem test_K1_skp : (step1 (at' ((State.reset.setReg 5 10).setKeyCell 10 true) 0x230 0xE59E)).pc = 0x234 := by decide
theorem test_K7_skp : (step1 (at' ((State.reset.setReg 5 0x1A).setKeyCell 10 true) 0x230 0xE59E)).err
    = some (.keyIndexOutOfRange 26) := by decide
theorem test_K3_sknp : (step1 (at' (State.reset.setReg 5 10) 0x230 0xE5A1)).pc = 0x234 := by decide
theorem test_K6_sknp : (let t := step1 (at' (State.reset.setReg 5 0xFF) 0x230 0xE5A1); (t.err, t.pc))
    = (some (.keyIndexOutOfRange 255), 0x232) := by decide

def keys (l : List Nat) (s : State) : State := l.foldl (fun s k => s.setKeyCell k true) s

theorem test_K8_ldVxK_waits : (let t := step1 (at' (State.reset.setReg 3 0x99) 0x240 0xF30A); (t.pc, t.reg 3)) = (0x240, 0x99) := by decide
theorem test_K9_ldVxK : (let t := step1 (at' (keys [15, 9, 4] State.reset) 0x240 0xF30A); (t.reg 3, t.pc, t.key[4])) = (4, 0x242, true) := by decide
theorem test_K10_ldVxK_clears : (let t := step1 (at' { keys [4, 9] State.reset with cfg := { defaultConfig with keyWaitClears := true } } 0x240 0xF30A);
    (t.reg 3, t.key[4], t.key[9])) = (4, false, true) := by decide
theorem test_K13_ldVxDt : (step1 (at' (State.reset.setDelay 0x3C) 0x200 0xF207)).reg 2 = 0x3C := by decide
theorem test_K14_ldDtVx : (step1 (at' (regs 0 60 0) 0x200 0xF215)).dt = 60 := by decide
theorem test_K15_ldStVx : isTonePlaying (step1 (at' (regs 0 3 0) 0x200 0xF218)) = true := by decide
/-- S5 as corrected by C10: the tone is off from the third tick on. -/
theorem test_S5_tone : ((List.range 6).map fun k => isTonePlaying (runOps (List.replicate k .tick) (State.reset.setSound 3)))
    = [true, true, true, false, false, false] := by decide
theorem test_K17_tick : (let t := tick (tick ((State.reset.setDelay 1).setSound 255)); (t.dt, t.st)) = (0, 253) := by decide
theorem test_K18_setKey : (setKey 16 true (setKey (-1) true State.reset)).key = State.reset.key := by decide
/-- L4: a second load leaves no trace of the first. -/
theorem test_L4_load : (let s := (loadProgram [1, 2, 3, 4, 5, 6] State.reset).1; (loadProgram [9, 9] s).1.readBytes 0x200 6)
    = [9, 9, 0, 0, 0, 0] := by decide
theorem test_L5_font : ([0x04F, 0x050, 0x09F, 0x0A0].map State.reset.readByte) = [0, 0xF0, 0x80, 0] := by decide

/-! ### Witnesses: the hypotheses of each statement that has some, met together at the edges of their ranges -/

theorem witness_LoadResetsThenCopies : ∃ bytes : List Byte, bytes.length ≤ 3584 ∧ bytes.length = 3584 :=
  ⟨List.replicate 3584 0xAB, by rw [List.length_replicate], by rw [List.length_replicate]⟩

theorem witness_LoadTooLargeChangesNothing : ∃ bytes : List Byte, bytes.length > 3584 ∧ bytes.length = 3585 :=
  ⟨List.replicate 3585 0xAB, by rw [List.length_replicate]; decide, by rw [List.length_replicate]⟩

/-- A live state whose next word spells `i`. -/
abbrev ready (s : State) (i : Instr) : Prop := s.live ∧ s.fetchable ∧ decodeWord s.word = some i

/-- The first and the last address an instruction can be fetched from. -/
theorem witness_StepRunsDecodedInstruction : ready (at' State.reset 0 0x6A5A) (.ldImm 0xA 0x5A) ∧
    ready (at' State.reset 0xFFE 0x6A5A) (.ldImm 0xA 0x5A) := by decide

theorem witness_UndefinedEncodingIsNoOp : let s := at' State.reset 0x200 0x5121
    s.live ∧ s.fetchable ∧ ∀ r ∈ opcodeTable, s.word &&& r.mask ≠ r.value := by decide

theorem witness_FetchOutOfBoundsFaults : State.reset.live ∧ 0xFFF ≤ (State.reset.setPc 0xFFF).pc.toNat ∧
    0xFFF ≤ (State.reset.setPc 0x1000).pc.toNat ∧ 0xFFF ≤ (State.reset.setPc 0xFFFF).pc.toNat := by decide

theorem witness_LatchedStepChangesNothing : (State.reset.latch .stackOverflow).err = some .stackOverflow := rfl

theorem witness_WaitingStepChangesNothing_draw : ready (at' State.reset 0x200 0xD125) (.drw 1 2 5) ∧
    (at' State.reset 0x200 0xD125).permit = false := by decide

theorem witness_WaitingStepChangesNothing_key : ready (at' State.reset 0x200 0xF30A) (.ldVxK 3) ∧
    ∀ k : Fin 16, (at' State.reset 0x200 0xF30A).key[k] = false := by decide

theorem witness_StoreIsSeenByNextFetch : let s := State.reset.setPc 0xFFE
    s.live ∧ s.fetchable ∧ ∃ t, s.memWrite s.pc.toNat (encodeBytes (.ldImm 0xA 0x5A)) = .ok t := ⟨by decide, by decide, _, rfl⟩

theorem witness_SelfJumpIsFixedPoint : ready (at' State.reset 0x204 0x1204) (.jp 0x204) ∧
    (at' State.reset 0x204 0x1204).pc = zext16 (0x204 : Addr12) := by decide

theorem witness_EncodeDecodeAgree : decodeWord 0xF065 = some (.ldRegs 0) := by decide

theorem witness_ReturnPopsNewestAddress : (withStack 1 0 0x206).sp.val = (0 : Fin 16).val + 1 ∧
    (withStack 16 15 0x206).sp.val = (15 : Fin 16).val + 1 := by decide

theorem witness_CallPushesAdvancedPc : (withStack 0 0 0).sp.val < 16 ∧ (withStack 15 0 0).sp.val < 16 := by decide

theorem witness_ReturnUndoesCall : ∃ t u : State, (withStack 15 0 0).sp.val < 16 ∧
    exec (.call 0x300) (withStack 15 0 0) = .next t ∧ u.stack = t.stack ∧ u.sp = t.sp ∧ u.i ≠ (withStack 15 0 0).i := by
  obtain ⟨t, ht⟩ : ∃ t, exec (.call 0x300) (withStack 15 0 0) = .next t := ⟨_, rfl⟩
  exact ⟨t, { State.reset with stack := t.stack, sp := t.sp, i := 7 }, by decide, ht, rfl, rfl,
    show (7 : Word) ≠ 0 by decide⟩

/-- The forms in which the result and the flag go to different registers, and one that is neither. -/
theorem witness_flag_forms : (1 : Reg) ≠ 15 ∧ (2 : Reg) ≠ 1 ∧ (2 : Reg) ≠ 15 := by decide

/-- `I = 0xFFD`: the last three bytes of memory. -/
theorem witness_DecimalStoreWritesThreeDigits : let s := withI 0xFFD State.reset
    s.i.toNat + 2 < 4096 ∧ 0xFFC < s.i.toNat := by decide

/-- `I = 0xFF0`, `x = 15`: the last sixteen bytes of memory. -/
theorem witness_StoreRegistersWritesRun : (withI 0xFF0 State.reset).i.toNat + (15 : Reg).toNat < 4096 := by decide

theorem witness_LoadRegistersReadsRun : (withI 0xFFF State.reset).i.toNat + (0 : Reg).toNat < 4096 := by decide

theorem witness_StoreThenLoadRestoresRegisters : ∃ t u : State, let s := withI 0x400 (regs 1 2 3)
    s.i.toNat + (15 : Reg).toNat < 4096 ∧ exec (.stRegs 15) s = .next t ∧ u.i = s.i ∧ u.mem = t.mem ∧ u.cfg = s.cfg ∧
    u.reg 1 ≠ s.reg 1 := by
  obtain ⟨t, ht⟩ : ∃ t, exec (.stRegs 15) (withI 0x400 (regs 1 2 3)) = .next t := ⟨_, rfl⟩
  exact ⟨t, { State.reset with mem := t.mem, i := 0x400 }, by decide, ht, rfl, rfl, rfl,
    show State.reset.reg 1 ≠ (withI 0x400 (regs 1 2 3)).reg 1 by decide⟩

/-- The `n` bytes from `a` are not all in memory, and `bad` is the lowest address that is not. -/
abbrev lowestBad (a n bad : Nat) : Prop := a ≤ bad ∧ bad < a + n ∧ 4096 ≤ bad ∧ ∀ k, a ≤ k → k < bad → k < 4096

/-- Three bytes from 0xFFE, sixteen from 0xFF1, one from 0x1000, two from 0xFFFF. -/
theorem witness_OutOfBoundsAccessRaises : lowestBad (withI 0xFFE State.reset).i.toNat 3 0x1000 ∧
    lowestBad (withI 0xFF1 State.reset).i.toNat 16 0x1000 ∧ lowestBad (withI 0x1000 State.reset).i.toNat 1 0x1000 ∧
    lowestBad (withI 0xFFFF State.reset).i.toNat 2 0xFFFF ∧ (State.reset.setPermit true).permit = true :=
  ⟨⟨by decide, by decide, by decide, fun _ _ h => h⟩, ⟨by decide, by decide, by decide, fun _ _ h => h⟩,
   ⟨by decide, by decide, by decide, fun _ _ h => h⟩, ⟨by decide, by decide, by decide, fun _ h1 h2 => absurd h2 (Nat.not_lt.2 h1)⟩, rfl⟩

theorem witness_CanonicalMemoryIsUnique : ∃ m m' : Memory, Memory.wf defaultConfig m ∧ Memory.wf defaultConfig m' ∧
    ∀ a, Memory.read defaultConfig m a = Memory.read defaultConfig m' a :=
  ⟨Memory.write defaultConfig [(0x300, 7)] 0x050 0, [(0x050, 0), (0x300, 7)], by decide, by decide, fun _ => rfl⟩

/-- No row at an `I` out of memory, and fifteen rows up to its last byte. -/
theorem witness_DrawTogglesCoveredPixels : (State.reset.setPermit true).permit = true ∧
    spriteInBounds (withI 0x1000 State.reset) 0 ∧ spriteInBounds (withI 0xFF1 State.reset) 15 := by decide

theorem covered : spriteCovers (sprite [0x80] 5 6 0 [(5, 6)]) 0 1 1 5 6 :=
  ⟨0, by decide, 0, by decide, by decide +kernel, by decide, by decide⟩

theorem witness_DrawTogglesCoveredPixels_hit : spriteHits (sprite [0x80] 5 6 0 [(5, 6)]) 0 1 1 := ⟨5, 6, covered, by decide +kernel⟩

theorem witness_DrawTogglesCoveredPixels_miss : ¬ spriteHits (sprite [0x80] 5 6 0 [(5, 6)]) 0 1 0 := by
  rintro ⟨_, _, ⟨row, h, _⟩, _⟩
  exact absurd h (Nat.not_lt_zero row)

theorem witness_DrawingTwiceCancels : ∃ t u : State, let s := sprite [0x80] 5 6 0 [(5, 6)]
    s.permit = true ∧ spriteInBounds s 1 ∧ exec (.drw 0 1 1) s = .next t ∧ u.permit = true ∧ u.cfg = s.cfg ∧ u.i = s.i ∧
    u.reg 0 = s.reg 0 ∧ u.reg 1 = s.reg 1 ∧ (∀ k < (1 : Nibble).toNat, u.readByte (s.i.toNat + k) = s.readByte (s.i.toNat + k)) ∧
    u.disp = t.disp ∧ spriteCovers s 0 1 1 5 6 := by
  obtain ⟨t, ht⟩ : ∃ t, exec (.drw 0 1 1) (sprite [0x80] 5 6 0 [(5, 6)]) = .next t := ⟨_, rfl⟩
  exact ⟨t, (sprite [0x80] 5 6 0 []).setDisplay t.disp, rfl, by decide, ht, rfl, rfl, rfl, rfl, rfl, fun _ _ => rfl, rfl, covered⟩

theorem witness_KeySkipsFollowLatch : ((State.reset.setReg 5 15).reg 5).toNat = (15 : Fin 16).val ∧
    (State.reset.reg 5).toNat = (0 : Fin 16).val := by decide

/-- `k` is the lowest pressed key. -/
abbrev lowestIs (s : State) (k : Fin 16) : Prop := s.key[k] = true ∧ ∀ j : Fin 16, j < k → s.key[j] = false

theorem witness_KeyWaitCommitsLowestKey : lowestIs (keys [0, 15] State.reset) 0 ∧ lowestIs (keys [15, 9, 4] State.reset) 4 ∧
    lowestIs (keys [15] State.reset) 15 := by decide

theorem witness_StackAndKeyChecksRaise : (withStack 16 0 0).sp.val = 16 ∧ State.reset.sp.val = 0 ∧
    ((State.reset.setReg 5 16).reg 5).toNat > 15 ∧ ((State.reset.setReg 5 255).reg 5).toNat > 15 := by decide

theorem witness_WaitsOnlyRewindPc : State.reset.permit = false ∧ ∀ k : Fin 16, State.reset.key[k] = false := by decide

/-- In a live state `i` answers a next state with this `err`. -/
abbrev raises (i : Instr) (s : State) (e : Option StepError) : Prop := s.live ∧ ∃ t, exec i s = .next t ∧ t.err = e

/-- Each of the four errors, and an instruction that raises none. -/
theorem witness_ErrorsArePrecise : raises .ret State.reset (some .stackUnderflow) ∧
    raises (.call 0x300) (withStack 16 0 0) (some .stackOverflow) ∧
    raises (.ldB 0) (withI 0xFFE State.reset) (some (.memOutOfBounds 0x1000)) ∧
    raises (.skp 5) (State.reset.setReg 5 16) (some (.keyIndexOutOfRange 16)) ∧ raises (.ldImm 1 2) State.reset none :=
  ⟨⟨rfl, _, rfl, rfl⟩, ⟨rfl, _, rfl, rfl⟩, ⟨rfl, _, rfl, rfl⟩, ⟨rfl, _, rfl, rfl⟩, ⟨rfl, _, rfl, rfl⟩⟩

theorem witness_ErrorsAreTheListedOnes : State.reset.live ∧ ∃ t, exec .ret State.reset = .next t := ⟨rfl, _, rfl⟩

theorem witness_OtherRegistersUnchanged : ∃ t, exec (.addReg 1 2) State.reset = .next t ∧ writesReg (.addReg 1 2) 2 = false ∧
    writesReg (.ldRegs 14) 15 = false := ⟨_, rfl, by decide, by decide⟩

theorem witness_OtherBytesUnchanged : ∃ t : State, let s := withI 0x300 State.reset
    exec (.ldB 0) s = .next t ∧ (0x2FF < s.i.toNat ∨ s.i.toNat + storeCount (.ldB 0) ≤ 0x2FF) ∧
    (0x303 < s.i.toNat ∨ s.i.toNat + storeCount (.ldB 0) ≤ 0x303) := ⟨_, rfl, by decide, by decide⟩

theorem witness_OnlyListedInstructionsWrite : ∃ t, exec (.jp 0x300) State.reset = .next t ∧ writesIndex (.jp 0x300) = false ∧
    (∀ nnn, Instr.jp 0x300 ≠ .call nnn) ∧ Instr.jp 0x300 ≠ .ret ∧ Instr.jp 0x300 ≠ .cls ∧ (∀ x y n, Instr.jp 0x300 ≠ .drw x y n) :=
  ⟨_, rfl, rfl, nofun, nofun, nofun, nofun⟩

theorem witness_StepKeepsWhatTheHostOwns : let s := at' ((keys [4] State.reset).setPermit true) 0x200 0x6A5A
    ∃ t, step s = .next t ∧ t.permit = true ∧ t.key[4] = true ∧ s.cfg.keyWaitClears = false := ⟨_, rfl, rfl, by decide, rfl⟩

theorem witness_NoDrawWithoutPermit : let s := at' State.reset 0x200 0xD125
    s.permit = false ∧ HostOp.step ≠ .setDrawPermit true ∧ HostOp.step ≠ .construct ∧ (∀ bytes, HostOp.step ≠ .loadProgram bytes) ∧
    decodeWord s.word ≠ some .cls := ⟨rfl, nofun, nofun, nofun, by decide⟩

theorem witness_LatchedErrorStays : (State.reset.latch .stackOverflow).err = some .stackOverflow ∧ HostOp.tick ≠ .construct ∧
    ∀ bytes, HostOp.tick = .loadProgram bytes → bytes.length > 3584 := ⟨rfl, nofun, nofun⟩

theorem witness_LatchedErrorStays_load : ∀ bytes, HostOp.loadProgram (List.replicate 3585 0xAB) = .loadProgram bytes →
    bytes.length > 3584 := fun bytes h => by
  rw [← HostOp.loadProgram.inj h, List.length_replicate]
  decide

theorem witness_StepKeepsMemoryCanonical : let s := at' (withI 0x300 (State.reset.setReg 0 234)) 0x200 0xF033
    s.memCanonical ∧ ∃ t, step s = .next t := ⟨by decide, _, rfl⟩

theorem witness_StepKeepsPcBounded : let s := (withStack 16 15 0x1000).setPc 0x10FE
    s.pcBounded ∧ ∃ t, step s = .next t := ⟨by unfold State.pcBounded; decide, _, rfl⟩

theorem witness_TimersNeverRiseByThemselves : let s := at' (State.reset.setDelay 9) 0x200 0xF207
    ∀ x, decodeWord s.word ≠ some (.ldDtVx x) ∧ decodeWord s.word ≠ some (.ldStVx x) := by decide

end Sys2Proof.Tests
end

section
/-! SUPPORT. The canonical form as a set of entries: a canonical memory lists exactly the addresses that read other than at reset,
and is therefore fixed by what it reads (log 11). -/

namespace Sys2Proof.Machine

variable {c : Config}

theorem Memory.wf_cons {e : Host.Cell} {m : Memory} :
    Memory.wf c (e :: m) ↔ (∀ d ∈ m, e.1 < d.1) ∧ (e.1 < memSize ∧ e.2 ≠ resetByte c e.1) ∧ Memory.wf c m := by
  simp only [Memory.wf, List.pairwise_cons, List.forall_mem_cons]
  tauto

/-- The entries of a canonical memory are read off it: an address with its byte, where that is not the reset contents. -/
theorem Memory.mem_iff_read {m : Memory} (h : Memory.wf c m) {d : Host.Cell} :
    d ∈ m ↔ Memory.read c m d.1 = d.2 ∧ d.2 ≠ resetByte c d.1 := by
  induction m with
  | nil =>
    simp only [List.not_mem_nil, Memory.read, false_iff]
    exact fun ⟨hread, hne⟩ => hne hread.symm
  | cons e m ih =>
    obtain ⟨hlt, ⟨-, he⟩, hm⟩ := Memory.wf_cons.1 h
    rw [List.mem_cons, Memory.read]
    by_cases ha : e.1 = d.1
    · have hd : d ∉ m := fun hd => (hlt d hd).ne ha
      rw [if_pos ha, or_iff_left hd, Prod.ext_iff, ← ha]
      exact ⟨fun ⟨_, hb⟩ => ⟨hb.symm, hb ▸ he⟩, fun ⟨hb, _⟩ => ⟨rfl, hb.symm⟩⟩
    · have hd : d ≠ e := fun hd => ha (congrArg Prod.fst hd.symm)
      rw [if_neg ha, or_iff_right hd, ih hm]

/-- Two canonical memories with the same entries are the same list, because the addresses strictly rise. -/
theorem Memory.eq_of_mem_iff {m m' : Memory} (h : Memory.wf c m) (h' : Memory.wf c m') (hmem : ∀ d, d ∈ m ↔ d ∈ m') :
    m = m' := by
  have : Std.Irrefl fun d e : Host.Cell => d.1 < e.1 := ⟨fun d => Nat.lt_irrefl d.1⟩
  have : Std.Antisymm fun d e : Host.Cell => d.1 < e.1 := ⟨fun _ _ hlt hgt => absurd hgt (Nat.lt_asymm hlt)⟩
  exact List.Pairwise.eq_of_mem_iff h.1 h'.1 hmem

/-- Settles O36: both lists hold the same entries, since the entries of each are read off it. -/
theorem canonicalMemoryIsUnique : Obligations.CanonicalMemoryIsUnique := by
  intro c m m' h h' hread
  refine Memory.eq_of_mem_iff h h' fun d => ?_
  rw [Memory.mem_iff_read h, Memory.mem_iff_read h', hread]

end Sys2Proof.Machine
end

section
/-! SUPPORT. The reset state, element by element (R24), and the two invariants in it. -/

namespace Sys2Proof.Machine

theorem State.reset_reg (r : Reg) : State.reset.reg r = 0 := Vector.getElem_replicate r.isLt

/-- Nothing is listed, so every byte reads as its reset contents. -/
theorem State.reset_readByte (a : Nat) : State.reset.readByte a = resetByte defaultConfig a := rfl

theorem State.reset_pcBounded : State.reset.pcBounded :=
  ⟨by decide, fun k => by simp [State.reset]⟩

/-- Settles O1, field by field; the font lies at the default `FONT_BASE`, 0x050. -/
theorem resetStateValues : Obligations.ResetStateValues :=
  ⟨State.reset_reg, rfl, rfl, rfl, fun k => Vector.getElem_replicate k.isLt, rfl, rfl, pixelOf_blankDisplay,
    fun k => Vector.getElem_replicate k.isLt, rfl, rfl, State.reset_readByte⟩

/-- Settles O58: the empty list is canonical, and `pc` is 0x200. -/
theorem resetMeetsInvariants : Obligations.ResetMeetsInvariants := ⟨Memory.nil_wf, State.reset_pcBounded⟩

end Sys2Proof.Machine
end

section
/-! SUPPORT. Everything an instruction can do to the state, said once: the execute phase always answers a next state, and that
state is the old one with one of a few groups of elements written (spec/10_state.md section 1). -/

namespace Sys2Proof.Machine

/-- The register file `v` holds what `s` holds in every register that `i` does not write (R10, R11). -/
def KeepsOtherRegs (i : Instr) (s : State) (v : Vector Byte 16) : Prop :=
  ∀ r : Reg, writesReg i r = false → ({ s with v := v } : State).reg r = s.reg r

/-- The states an instruction may leave: one constructor for each group of elements that is written together, with the
instructions that write it, and what the invariants need of the value written. -/
inductive Effect (i : Instr) (s : State) : State → Prop
  /-- An error is latched and nothing else is done (R133). -/
  | raised (e : StepError) : Effect i s (s.latch e)
  /-- A jump, a skip or a wait (R67, R71, R73 to R78). A `pc` advanced after a fetch goes to 0x10FE at most (R13). -/
  | pcMoved (w : Word) (hw : 2 ≤ s.pc.toNat → s.pc.toNat ≤ 0x1000 → w.toNat ≤ 0x10FE) : Effect i s (s.setPc w)
  /-- 00EE (R70). -/
  | returned (hi : i = .ret) (sp : Fin 17) (k : Fin 16) : Effect i s { s with sp := sp, pc := s.stack[k] }
  /-- 2nnn (R72). -/
  | called (nnn : Addr12) (hi : i = .call nnn) (k : Fin 16) (sp : Fin 17) :
      Effect i s { s with stack := s.stack.set k s.pc, sp := sp, pc := zext16 nnn }
  /-- Registers alone (R80 to R90, R117, R118). -/
  | regsWritten (v : Vector Byte 16) (hv : KeepsOtherRegs i s v) : Effect i s { s with v := v }
  /-- Cxkk (R91). -/
  | randomDrawn (x : Reg) (kk : Byte) (hi : i = .rnd x kk) (b : Byte) : Effect i s (s.setReg x b).countDraw
  /-- Fx0A with a key down, under `KEY_WAIT_CLEARS` (R117). -/
  | keyTaken (x : Reg) (hi : i = .ldVxK x) (hc : s.cfg.keyWaitClears = true) (b : Byte) (k : Nat) :
      Effect i s ((s.setReg x b).setKeyCell k false)
  /-- Fx65 (R100). -/
  | regsLoaded (x : Reg) (hi : i = .ldRegs x) (v : Vector Byte 16) (hv : KeepsOtherRegs i s v) (w : Word) :
      Effect i s { s with v := v, i := w }
  /-- Annn, Fx1E, Fx29 (R95 to R97). -/
  | indexSet (hi : writesIndex i = true) (w : Word) : Effect i s (s.setIndex w)
  /-- Fx33 and Fx55, which store the run of bytes from `I`, all in bounds; Fx55 moves `I` past it (R98, R99). -/
  | bytesStored (bs : List Byte) (hn : bs.length = storeCount i) (hb : s.i.toNat + bs.length ≤ memSize) (w : Word)
      (hw : writesIndex i = false → w = s.i) :
      Effect i s { s with mem := (s.writeBytes s.i.toNat bs).mem, i := w }
  /-- Dxyn with the permit (R107 to R111). -/
  | drawn (x y : Reg) (n : Nibble) (hi : i = .drw x y n) (hp : s.permit = true) (c : Canvas) : Effect i s (s.finishDraw c)
  /-- 00E0 (R105). -/
  | cleared (hi : i = .cls) : Effect i s (s.setDisplay blankDisplay)
  /-- Fx15 (R119). -/
  | delaySet (x : Reg) (hi : i = .ldDtVx x) (b : Byte) : Effect i s (s.setDelay b)
  /-- Fx18 (R120). -/
  | soundSet (x : Reg) (hi : i = .ldStVx x) (b : Byte) : Effect i s (s.setSound b)

variable {i : Instr} {s t : State}

/-! ### The effects that several instructions share -/

theorem KeepsOtherRegs.setReg {x : Reg} (hx : writesReg i x = true) (b : Byte) : KeepsOtherRegs i s (s.setReg x b).v :=
  fun _ hr => State.reg_setReg_of_ne s b fun e => by simp [e, hx] at hr

theorem KeepsOtherRegs.setResult {x : Reg} (hx : writesReg i x = true) (hf : writesReg i flagReg = true) (b : Byte) (f : Bool) :
    KeepsOtherRegs i s (s.setResult x b f).v := fun r hr => by
  have hrx : r ≠ x := fun e => by simp [e, hx] at hr
  have hrf : r ≠ flagReg := fun e => by simp [e, hf] at hr
  exact (State.reg_setResult s x b f r).trans (by simp [hrx, hrf])

/-- The registers above `x` are not loaded. -/
theorem KeepsOtherRegs.setRegsFrom {x : Reg} {bs : List Byte} (hn : bs.length = x.toNat + 1) :
    KeepsOtherRegs (.ldRegs x) s (s.setRegsFrom 0 bs).v := fun r hr => by
  have hrx : ¬ r.toNat ≤ x.toNat := of_decide_eq_false hr
  exact (State.reg_setRegsFrom s 0 bs r).trans (dif_neg (by omega))

theorem Effect.setReg {x : Reg} (hx : writesReg i x = true) (b : Byte) : Effect i s (s.setReg x b) :=
  .regsWritten _ (.setReg hx b)

theorem Effect.setResult {x : Reg} (hx : writesReg i x = true) (hf : writesReg i flagReg = true) (b : Byte) (f : Bool) :
    Effect i s (s.setResult x b f) := .regsWritten _ (.setResult hx hf b f)

theorem Effect.skipIf (b : Bool) : Effect i s (s.skipIf b) := by
  rw [State.skipIf_eq]
  refine .pcMoved _ fun _ hhi => ?_
  cases b <;> simp <;> omega

theorem Effect.rewind : Effect i s s.rewind := .pcMoved _ fun hlo hhi => by bv_omega

/-- The target of 1nnn and 2nnn is 0xFFF at most (R71, R72). -/
theorem zext16_addr_le (nnn : Addr12) : (zext16 nnn).toNat ≤ 0xFFF := by
  rw [BitVec.toNat_setWidth_of_le (by omega)]
  omega

/-- The target of Bnnn is 0xFFF + 0xFF at most, so the sum does not wrap (R77, R13). -/
theorem zext16_addr_add_byte_le (nnn : Addr12) (b : Byte) : (zext16 nnn + zext16 b).toNat ≤ 0x10FE := by
  have hn := zext16_addr_le nnn
  have hb : (zext16 b).toNat = b.toNat := BitVec.toNat_setWidth_of_le (by omega)
  bv_omega

/-! ### Every instruction -/

/-- The execute phase answers a next state, and it is one of these effects. -/
theorem exec_effect (i : Instr) (s : State) : ∃ t, exec i s = .next t ∧ Effect i s t := by
  cases i with
  | cls => exact ⟨_, rfl, .cleared rfl⟩
  | ret =>
    rcases exec_ret_cases s with ⟨k, -, h⟩ | ⟨-, h⟩
    · exact ⟨_, h, .returned rfl _ k⟩
    · exact ⟨_, h, .raised _⟩
  | call nnn =>
    rcases exec_call_cases nnn s with ⟨hsp, h⟩ | ⟨-, h⟩
    · exact ⟨_, h, .called nnn rfl ⟨s.sp.val, hsp⟩ _⟩
    · exact ⟨_, h, .raised _⟩
  | jp nnn => exact ⟨_, rfl, .pcMoved _ fun _ _ => (zext16_addr_le nnn).trans (by omega)⟩
  | jpV0 nnn => exact ⟨_, rfl, .pcMoved _ fun _ _ => zext16_addr_add_byte_le nnn (s.reg 0)⟩
  | seImm x kk | sneImm x kk => exact ⟨_, rfl, .skipIf _⟩
  | seReg x y | sneReg x y => exact ⟨_, rfl, .skipIf _⟩
  | skp x =>
    rcases exec_skp_cases x s with ⟨k, -, h⟩ | ⟨-, h⟩
    · exact ⟨_, h, .skipIf _⟩
    · exact ⟨_, h, .raised _⟩
  | sknp x =>
    rcases exec_sknp_cases x s with ⟨k, -, h⟩ | ⟨-, h⟩
    · exact ⟨_, h, .skipIf _⟩
    · exact ⟨_, h, .raised _⟩
  | ldImm x _ | addImm x _ | ldReg x _ | ldVxDt x => exact ⟨_, rfl, .setReg (by simp [writesReg]) _⟩
  | orReg x _ | andReg x _ | xorReg x _ | addReg x _ | sub x _ | shr x _ | subn x _ | shl x _ =>
    exact ⟨_, rfl, .setResult (by simp [writesReg]) (by simp [writesReg]) _ _⟩
  | rnd x kk => exact ⟨_, rfl, .randomDrawn x kk rfl _⟩
  | drw x y n =>
    rcases exec_drw_cases x y n s with ⟨-, h⟩ | ⟨hp, -, h⟩ | ⟨-, bad, -, h⟩
    · exact ⟨_, h, .rewind⟩
    · exact ⟨_, h, .drawn x y n rfl hp _⟩
    · exact ⟨_, h, .raised _⟩
  | ldVxK x =>
    rcases exec_ldVxK_cases x s with ⟨-, h⟩ | ⟨k, -, h⟩
    · exact ⟨_, h, .rewind⟩
    · refine ⟨_, h, ?_⟩
      split
      · next hc => exact .keyTaken x rfl hc _ k
      · exact .setReg (by simp [writesReg]) _
  | ldDtVx x => exact ⟨_, rfl, .delaySet x rfl _⟩
  | ldStVx x => exact ⟨_, rfl, .soundSet x rfl _⟩
  | ldI _ | addI _ | ldF _ => exact ⟨_, rfl, .indexSet rfl _⟩
  | ldB x =>
    rcases exec_ldB_cases x s with ⟨hb, h⟩ | ⟨bad, -, h⟩
    · have hb := (firstOutOfBounds_eq_none.1 hb).resolve_left (by omega)
      rw [State.writeBytes_eq] at h
      exact ⟨_, h, .bytesStored _ rfl hb _ fun _ => rfl⟩
    · exact ⟨_, h, .raised _⟩
  | stRegs x =>
    rcases exec_stRegs_cases x s with ⟨hb, h⟩ | ⟨bad, -, h⟩
    · have hb := (firstOutOfBounds_eq_none.1 hb).resolve_left (by omega)
      have hn := s.length_regsUpTo x
      rw [State.writeBytes_eq] at h
      exact ⟨_, h, .bytesStored _ hn (by rwa [hn]) _ nofun⟩
    · exact ⟨_, h, .raised _⟩
  | ldRegs x =>
    rcases exec_ldRegs_cases x s with ⟨-, h⟩ | ⟨bad, -, h⟩
    · rw [State.setRegsFrom_eq] at h
      exact ⟨_, h, .regsLoaded x rfl _ (.setRegsFrom (s.length_readBytes _ _)) _⟩
    · exact ⟨_, h, .raised _⟩

/-- The next state an instruction answers is one of its effects. -/
theorem Effect.of_exec (h : exec i s = .next t) : Effect i s t := by
  obtain ⟨u, hu, he⟩ := exec_effect i s
  exact Host.Outcome.next.inj (hu.symm.trans h) ▸ he

/-- What a step can do (R60): nothing, an error latched, or from an address that can be fetched the advance alone or an effect of
the decoded instruction after it. -/
theorem step_effect (h : step s = .next t) :
    t = s ∨ (∃ e, t = s.latch e) ∨
      s.fetchable ∧ (t = s.advance ∨ ∃ i, decodeWord s.word = some i ∧ Effect i s.advance t) := by
  rcases step_cases s with ⟨e, -, hs⟩ | ⟨-, -, hs⟩ | ⟨-, hf, i, hi, hs⟩ | ⟨-, hf, -, hs⟩
  · exact .inl (Host.Outcome.next.inj (h.symm.trans hs))
  · exact .inr (.inl ⟨_, Host.Outcome.next.inj (h.symm.trans hs)⟩)
  · exact .inr (.inr ⟨hf, .inr ⟨i, hi, .of_exec (hs.symm.trans h)⟩⟩)
  · exact .inr (.inr ⟨hf, .inl (Host.Outcome.next.inj (h.symm.trans hs))⟩)

end Sys2Proof.Machine
end

section
/-! PROOFS. What every instruction leaves unchanged, and the step's invariants, each from the effects. -/

namespace Sys2Proof.Machine

variable {i : Instr} {s t : State}

/-! ### What an instruction leaves unchanged -/

theorem Effect.reg_eq (h : Effect i s t) {r : Reg} (hr : writesReg i r = false) : t.reg r = s.reg r := by
  cases h with
  | raised | pcMoved | returned | called | indexSet | bytesStored | cleared | delaySet | soundSet => rfl
  | regsWritten v hv | regsLoaded _ _ v hv => exact hv r hr
  | randomDrawn x kk hi | keyTaken x hi =>
    subst hi
    exact State.reg_setReg_of_ne s _ (beq_eq_false_iff_ne.1 hr)
  | drawn x y n hi =>
    subst hi
    exact State.reg_setReg_of_ne s _ (beq_eq_false_iff_ne.1 hr)

theorem Effect.index_eq (h : Effect i s t) (hi : writesIndex i = false) : t.i = s.i := by
  cases h with
  | regsLoaded x hx => subst hx; cases hi
  | indexSet hw => rw [hi] at hw; cases hw
  | bytesStored _ _ _ w hw => exact hw hi
  | _ => rfl

theorem Effect.stack_eq (h : Effect i s t) (hi : ∀ nnn, i ≠ .call nnn) : t.stack = s.stack := by
  cases h with
  | called nnn hc => exact absurd hc (hi nnn)
  | _ => rfl

theorem Effect.sp_eq (h : Effect i s t) (hc : ∀ nnn, i ≠ .call nnn) (hr : i ≠ .ret) : t.sp = s.sp := by
  cases h with
  | called nnn hi => exact absurd hi (hc nnn)
  | returned hi => exact absurd hi hr
  | _ => rfl

theorem Effect.dt_eq (h : Effect i s t) (hi : ∀ x, i ≠ .ldDtVx x) : t.dt = s.dt := by
  cases h with
  | delaySet x hx => exact absurd hx (hi x)
  | _ => rfl

theorem Effect.st_eq (h : Effect i s t) (hi : ∀ x, i ≠ .ldStVx x) : t.st = s.st := by
  cases h with
  | soundSet x hx => exact absurd hx (hi x)
  | _ => rfl

theorem Effect.disp_eq (h : Effect i s t) (hc : i ≠ .cls) (hd : ∀ x y n, i ≠ .drw x y n) : t.disp = s.disp := by
  cases h with
  | cleared hi => exact absurd hi hc
  | drawn x y n hi => exact absurd hi (hd x y n)
  | _ => rfl

theorem Effect.rndDraws_eq (h : Effect i s t) (hi : ∀ x kk, i ≠ .rnd x kk) : t.rndDraws = s.rndDraws := by
  cases h with
  | randomDrawn x kk hx => exact absurd hx (hi x kk)
  | _ => rfl

/-- Settles O50: the effects that write registers keep those `i` does not write. -/
theorem otherRegistersUnchanged : Obligations.OtherRegistersUnchanged :=
  fun _ _ _ _ h hr => (Effect.of_exec h).reg_eq hr

/-- Settles O52, element by element: the effects that write it belong to its listed instructions. -/
theorem onlyListedInstructionsWrite : Obligations.OnlyListedInstructionsWrite := by
  intro i s t h
  have he := Effect.of_exec h
  exact ⟨he.index_eq, he.stack_eq, he.sp_eq, he.dt_eq, he.st_eq, he.disp_eq, he.rndDraws_eq⟩

/-! ### What the host owns -/

theorem Effect.cfg_eq (h : Effect i s t) : t.cfg = s.cfg := by
  cases h <;> rfl

/-- A draw uses the permit up, and nothing brings one. -/
theorem Effect.permit_of_permit (h : Effect i s t) (ht : t.permit = true) : s.permit = true := by
  cases h with
  | drawn x y n hi hp => exact hp
  | _ => exact ht

theorem Effect.key_eq (h : Effect i s t) (hc : s.cfg.keyWaitClears = false) : t.key = s.key := by
  cases h with
  | keyTaken x hi hk => rw [hc] at hk; cases hk
  | _ => rfl

theorem Effect.key_of_key (h : Effect i s t) {k : Fin 16} (ht : t.key[k] = true) : s.key[k] = true := by
  cases h with
  | keyTaken x hi hc b j =>
    by_cases hj : j = k.val
    · simp [hj] at ht
    · simpa [Vector.getElem_setIfInBounds_ne, hj] using ht
  | _ => exact ht

/-- Settles O53: outside an instruction's effect the step changes only `pc` and `err`. -/
theorem stepKeepsWhatTheHostOwns : Obligations.StepKeepsWhatTheHostOwns := by
  intro s t h
  rcases step_effect h with rfl | ⟨e, rfl⟩ | ⟨-, rfl | ⟨i, -, he⟩⟩
  · exact ⟨id, fun _ => id, fun _ => rfl, rfl⟩
  · exact ⟨id, fun _ => id, fun _ => rfl, rfl⟩
  · exact ⟨id, fun _ => id, fun _ => rfl, rfl⟩
  · exact ⟨he.permit_of_permit, fun _ => he.key_of_key, he.key_eq, he.cfg_eq⟩

/-! ### Invariants -/

/-- The two stores are checked before they write, so they write in bounds; nothing else writes memory. -/
theorem Effect.memCanonical (h : Effect i s t) (hs : s.memCanonical) : t.memCanonical := by
  cases h with
  | bytesStored bs _ hb => exact State.writeBytes_wf hs (.inr hb)
  | _ => exact hs

/-- Settles O56: outside an instruction's effect the step writes no memory. -/
theorem stepKeepsMemoryCanonical : Obligations.StepKeepsMemoryCanonical := by
  intro s t hs h
  rcases step_effect h with rfl | ⟨e, rfl⟩ | ⟨-, rfl | ⟨i, -, he⟩⟩
  · exact hs
  · exact hs
  · exact hs
  · exact he.memCanonical hs

/-- An instruction that sees a `pc` of 2 to 0x1000, as advanced after a fetch, keeps the bounds: a call stores that `pc`, and a
return takes a stored one (R13, R70, R72). -/
theorem Effect.pcBounded (h : Effect i s t) (hlo : 2 ≤ s.pc.toNat) (hhi : s.pc.toNat ≤ 0x1000)
    (hstack : ∀ k : Fin 16, (s.stack[k]).toNat ≤ 0x1000) : t.pcBounded := by
  have hpc : s.pc.toNat ≤ 0x10FE := by omega
  cases h with
  | pcMoved w hw => exact ⟨hw hlo hhi, hstack⟩
  | returned hi sp k => exact ⟨(hstack k).trans (by omega), hstack⟩
  | called nnn hi k sp =>
    refine ⟨(zext16_addr_le nnn).trans (by omega), fun j => ?_⟩
    by_cases hj : k = j
    · simpa [hj] using hhi
    · simpa [Vector.getElem_set_ne, Fin.val_ne_of_ne hj] using hstack j
  | _ => exact ⟨hpc, hstack⟩

/-- Settles O57: a fetch succeeds below 0xFFF, so the instruction sees a `pc` of 2 to 0x1000. -/
theorem stepKeepsPcBounded : Obligations.StepKeepsPcBounded := by
  intro s t hs h
  rcases step_effect h with rfl | ⟨e, rfl⟩ | ⟨hf, hadv⟩
  · exact hs
  · exact hs
  · obtain ⟨-, hstack⟩ := hs
    have hpc : s.advance.pc.toNat = s.pc.toNat + 2 := by
      rw [State.advance_pc]; bv_omega
    rcases hadv with rfl | ⟨i, -, he⟩
    · exact ⟨by omega, hstack⟩
    · exact he.pcBounded (by omega) (by omega) hstack

end Sys2Proof.Machine
end

section
/-! PROOFS. Memory as the instructions meet it: a word stored at `pc` is what the next step executes, an access that is not all in
bounds raises, and only the two stores write, from `I` on. -/

namespace Sys2Proof.Machine

variable {i : Instr} {s t : State}

/-! ### A store is seen by the next fetch -/

/-- The word of an instruction decodes to it: its fields are read back, and its fixed digits select its own row (R48, R53). -/
theorem decodeWord_encode (i : Instr) : decodeWord (encode i) = some i := by
  cases i with
  | cls | ret => decide
  | jp | call | ldI | jpV0 | seImm | sneImm | ldImm | addImm | rnd | seReg | sneReg | drw => simp [encode, decodeWord]
  | ldReg | orReg | andReg | xorReg | addReg | sub | shr | subn | shl => simp [encode, decodeWord, decodeAlu]
  | skp | sknp => simp [encode, decodeWord, decodeKey]
  | ldVxDt | ldVxK | ldDtVx | ldStVx | addI | ldF | ldB | stRegs | ldRegs => simp [encode, decodeWord, decodeMisc]

/-- With no error latched, the word at a `pc` in range is executed on the advanced `pc` (R60 to R63). -/
theorem step_eq_exec (hl : s.live) (hf : s.fetchable) (hi : decodeWord s.word = some i) : step s = exec i s.advance := by
  rcases step_cases s with ⟨e, he, -⟩ | ⟨-, hpc, -⟩ | ⟨-, -, j, hj, hs⟩ | ⟨-, -, hn, -⟩
  · cases hl.symm.trans he
  · exact absurd hf (Nat.not_lt.2 hpc)
  · rw [hs, Option.some.inj (hj.symm.trans hi)]
  · cases hn.symm.trans hi

@[simp] theorem State.writeBytes_pc (s : State) (a : Nat) (bs : List Byte) : (s.writeBytes a bs).pc = s.pc := by
  rw [State.writeBytes_eq]

@[simp] theorem State.writeBytes_err (s : State) (a : Nat) (bs : List Byte) : (s.writeBytes a bs).err = s.err := by
  rw [State.writeBytes_eq]

/-- The two bytes of `w` stored at `pc`, high byte first, are the word there (R34). -/
theorem State.word_writeBytes (s : State) (w : Word) : (s.writeBytes s.pc.toNat (wordBytes w)).word = w := by
  simpa [State.word, State.readByte_writeBytes, wordBytes] using bigEndian_wordBytes w

/-- A checked store that succeeds is the run of writes. -/
theorem State.eq_writeBytes_of_memWrite {a : Nat} {bs : List Byte} (h : s.memWrite a bs = .ok t) : t = s.writeBytes a bs := by
  rcases s.memWrite_cases a bs with ⟨-, hw⟩ | ⟨bad, -, hw⟩
  · exact Except.ok.inj (h.symm.trans hw)
  · cases h.symm.trans hw

/-- Settles O11: the store keeps `pc` and the latch, and leaves the encoding of the instruction as the word at `pc`. -/
theorem storeIsSeenByNextFetch : Obligations.StoreIsSeenByNextFetch := by
  intro s t i hl hf h
  obtain rfl := State.eq_writeBytes_of_memWrite h
  have hl' : (s.writeBytes s.pc.toNat (encodeBytes i)).live := (s.writeBytes_err _ _).trans hl
  have hf' : (s.writeBytes s.pc.toNat (encodeBytes i)).fetchable := by rwa [State.fetchable, State.writeBytes_pc]
  have hword : (s.writeBytes s.pc.toNat (encodeBytes i)).word = encode i := s.word_writeBytes (encode i)
  have hstep := step_eq_exec hl' hf' (by rw [hword, decodeWord_encode])
  rwa [State.advance, State.setPc, State.writeBytes_pc] at hstep

/-! ### An access out of bounds -/

/-- Where the bounds check reports `bad`, an instruction that either passes the check or raises its report raises `bad` (R37). -/
theorem eq_latch_of_firstOutOfBounds {a n bad : Nat} {r : Result} {inBounds : Prop}
    (hr : (firstOutOfBounds a n = none ∧ inBounds) ∨
      ∃ b, firstOutOfBounds a n = some b ∧ r = .next (s.latch (.memOutOfBounds b)))
    (h : firstOutOfBounds a n = some bad) : r = .next (s.latch (.memOutOfBounds bad)) := by
  rcases hr with ⟨hn, -⟩ | ⟨b, hb, hr⟩
  · cases hn.symm.trans h
  · rw [hr, Option.some.inj (hb.symm.trans h)]

/-- With the permit, Dxyn draws, or raises on the lowest bad address. -/
theorem exec_drw_cases_of_permit (x y : Reg) (n : Nibble) (hp : s.permit = true) :
    (firstOutOfBounds s.i.toNat n.toNat = none ∧ exec (.drw x y n) s = .next
      (s.finishDraw (drawSprite s.cfg.edgePolicy (s.reg x) (s.reg y) (s.readBytes s.i.toNat n.toNat) s.disp))) ∨
    ∃ bad, firstOutOfBounds s.i.toNat n.toNat = some bad ∧ exec (.drw x y n) s = .next (s.latch (.memOutOfBounds bad)) := by
  rcases exec_drw_cases x y n s with ⟨hp', -⟩ | ⟨-, h⟩ | ⟨-, h⟩
  · cases hp.symm.trans hp'
  · exact .inl h
  · exact .inr h

/-- Settles O35: `bad` is what the one bounds check of each of the four instructions reports. -/
theorem outOfBoundsAccessRaises : Obligations.OutOfBoundsAccessRaises := by
  intro s bad n hlo hhi hbad hlowest
  have h : firstOutOfBounds s.i.toNat n = some bad := firstOutOfBounds_eq_some.2 ⟨hlo, hhi, hbad, hlowest⟩
  refine ⟨?_, ?_, ?_, ?_⟩
  · rintro rfl x
    exact eq_latch_of_firstOutOfBounds (exec_ldB_cases x s) h
  · rintro x rfl
    exact eq_latch_of_firstOutOfBounds (exec_stRegs_cases x s) h
  · rintro x rfl
    exact eq_latch_of_firstOutOfBounds (exec_ldRegs_cases x s) h
  · rintro x y m rfl hp
    exact eq_latch_of_firstOutOfBounds (exec_drw_cases_of_permit x y m hp) h

/-! ### The bytes an instruction leaves unchanged -/

/-- Only the stores write memory, and only the run of bytes from `I` (R36). -/
theorem Effect.readByte_eq (h : Effect i s t) {a : Nat} (ha : a < s.i.toNat ∨ s.i.toNat + storeCount i ≤ a) :
    t.readByte a = s.readByte a := by
  cases h with
  | bytesStored bs hn _ w =>
    have hread := s.readByte_writeBytes s.i.toNat a bs
    rwa [dif_neg (by omega), State.writeBytes_eq] at hread
  | _ => rfl

/-- Settles O51: an instruction's effect keeps every byte outside its run. -/
theorem otherBytesUnchanged : Obligations.OtherBytesUnchanged :=
  fun _ _ _ _ h ha => (Effect.of_exec h).readByte_eq ha

end Sys2Proof.Machine
end

section
/-! PROOFS. Decoder and encoder are inverse to each other, and the words the decoder refuses are the undefined encodings of R50. -/

namespace Sys2Proof

variable {w : Word} {i : Instr} {x y : Reg} {n op : Nibble} {kk : Byte}

/-! ### Decoding an encoding -/

/-- Settles O13: the decoder reads the two bytes as their word, and the word of an instruction decodes to it. -/
theorem decodeEncodeAgree : Obligations.DecodeEncodeAgree := by
  intro i rest
  rw [encodeBytes, decode_wordBytes, Machine.decodeWord_encode]

/-! ### Encoding a decoding -/

/-- The fields of a word after its top nibble `op` give the word back, in each of the formats (R47). -/
theorem formatNNN_eq_of_opField (h : (opField w).toNat = op.toNat) : formatNNN op (nnnField w) = w := by
  rw [← BitVec.eq_of_toNat_eq h, formatNNN_fields]

theorem formatXKK_eq_of_opField (h : (opField w).toNat = op.toNat) : formatXKK op (xField w) (kkField w) = w := by
  rw [← BitVec.eq_of_toNat_eq h, formatXKK_fields]

theorem formatXYN_eq_of_opField (h : (opField w).toNat = op.toNat) :
    formatXYN op (xField w) (yField w) (nField w) = w := by
  rw [← BitVec.eq_of_toNat_eq h, formatXYN_fields]

theorem encode_of_decodeSystem (h : decodeSystem w = some i) : encode i = w := by
  unfold decodeSystem at h
  split at h
  · next hw => cases h; exact hw.symm
  · split at h
    · next hw => cases h; exact hw.symm
    · cases h

/-- The low nibble that selects an operation is the fixed digit of its row (R48 rows 10 to 18). -/
theorem encode_of_decodeAlu (h : decodeAlu x y n = some i) : encode i = formatXYN 0x8 x y n := by
  unfold decodeAlu at h
  split at h <;> cases h
  all_goals next hn => exact congrArg (formatXYN 0x8 x y) (BitVec.eq_of_toNat_eq hn.symm)

/-- The low byte that selects an operation is the fixed byte of its row (R48 rows 24 and 25). -/
theorem encode_of_decodeKey (h : decodeKey x kk = some i) : encode i = formatXKK 0xE x kk := by
  unfold decodeKey at h
  split at h <;> cases h
  all_goals next hkk => exact congrArg (formatXKK 0xE x) (BitVec.eq_of_toNat_eq hkk.symm)

/-- The low byte that selects an operation is the fixed byte of its row (R48 rows 26 to 34). -/
theorem encode_of_decodeMisc (h : decodeMisc x kk = some i) : encode i = formatXKK 0xF x kk := by
  unfold decodeMisc at h
  split at h <;> cases h
  all_goals next hkk => exact congrArg (formatXKK 0xF x) (BitVec.eq_of_toNat_eq hkk.symm)

/-- Settles O14, by the top nibble: what the decoder reads are the fields of the word, and the digits it tests are the fixed ones
that the encoder writes. -/
theorem encodeDecodeAgree : Obligations.EncodeDecodeAgree := by
  intro w i h
  unfold decodeWord at h
  split at h
  -- 0x00E0 and 0x00EE
  case h_1 => exact encode_of_decodeSystem h
  -- Format NNN: 1nnn, 2nnn, Annn, Bnnn
  case h_2 hop | h_3 hop | h_11 hop | h_12 hop => cases h; exact formatNNN_eq_of_opField hop
  -- Format XKK: 3xkk, 4xkk, 6xkk, 7xkk, Cxkk
  case h_4 hop | h_5 hop | h_7 hop | h_8 hop | h_13 hop => cases h; exact formatXKK_eq_of_opField hop
  -- The low digit fixed at 0: 5xy0, 9xy0
  case h_6 hop | h_10 hop =>
    split at h
    · next hn => cases h; rw [encode, ← hn]; exact formatXYN_eq_of_opField hop
    · cases h
  -- 8xyn, Dxyn, Exkk, Fxkk
  case h_9 hop => exact (encode_of_decodeAlu h).trans (formatXYN_eq_of_opField hop)
  case h_14 hop => cases h; exact formatXYN_eq_of_opField hop
  case h_15 hop => exact (encode_of_decodeKey h).trans (formatXKK_eq_of_opField hop)
  case h_16 hop => exact (encode_of_decodeMisc h).trans (formatXKK_eq_of_opField hop)
  -- A top nibble has no other value than these
  case h_17 => cases h

/-! ### The undefined encodings -/

theorem decodeSystem_eq_none : decodeSystem w = none ↔ w.toNat ≠ 0x00E0 ∧ w.toNat ≠ 0x00EE := by
  simp only [decodeSystem, ← BitVec.toNat_inj, BitVec.toNat_ofNat, Nat.reducePow, Nat.reduceMod]
  split_ifs <;> simp [*]

/-- The test of 5xy0 and 9xy0 on their fixed low digit. -/
theorem nField_eq_zero : nField w = 0 ↔ w.toNat % 16 = 0 := by
  rw [← nField_toNat, ← BitVec.toNat_inj]
  rfl

theorem decodeAlu_eq_none : decodeAlu x y n = none ↔ n.toNat ∈ [0x8, 0x9, 0xA, 0xB, 0xC, 0xD, 0xF] := by
  have hlt := n.isLt
  unfold decodeAlu
  split
  case h_10 => simp_all; omega
  all_goals simp [*]

theorem decodeKey_eq_none : decodeKey x kk = none ↔ kk.toNat ∉ [0x9E, 0xA1] := by
  unfold decodeKey
  split <;> simp_all

theorem decodeMisc_eq_none :
    decodeMisc x kk = none ↔ kk.toNat ∉ [0x07, 0x0A, 0x15, 0x18, 0x1E, 0x29, 0x33, 0x55, 0x65] := by
  unfold decodeMisc
  split <;> simp_all

/-- Settles O15, by the top nibble: six of the sixteen have undefined words, and what the decoder tests there are the digits that
R50 lists. -/
theorem undefinedWordsAreTheListedOnes : Obligations.UndefinedWordsAreTheListedOnes := by
  intro w
  have hlt := (opField w).isLt
  rw [← opField_toNat]
  unfold decodeWord
  split
  -- Top nibbles 0, 5 and 9, 8, E, F: the test made there is on the listed digits
  case h_1 hop => simp [hop, decodeSystem_eq_none]
  case h_6 hop | h_10 hop => simp [hop, ← nField_eq_zero]
  case h_9 hop => simp [hop, decodeAlu_eq_none, nField_toNat]
  case h_15 hop => simp [hop, decodeKey_eq_none, kkField_toNat]
  case h_16 hop => simp [hop, decodeMisc_eq_none, kkField_toNat]
  -- A top nibble above 15, then the ten under which every word decodes
  case h_17 => simp only [imp_false] at *; omega
  all_goals next hop => simp [hop]

/-! ### Words the spec writes out -/

/-- Settles O16: the decoder evaluates each word. -/
theorem writtenOutWordsDecode : Obligations.WrittenOutWordsDecode := by
  unfold Obligations.WrittenOutWordsDecode
  decide

end Sys2Proof
end

section
/-! PROOFS. The step cycle (R60 to R67): what the host sees of one step, in each of the ways a step can go. -/

namespace Sys2Proof.Machine

variable {i : Instr} {s t : State}

/-! ### The cases of a step, each from its own condition -/

/-- With an error latched a step does nothing (R65). -/
theorem step_of_err {e : StepError} (he : s.err = some e) : step s = .next s := by
  rcases step_cases s with ⟨-, -, hs⟩ | ⟨hl, -⟩ | ⟨hl, -⟩ | ⟨hl, -⟩
  · exact hs
  all_goals cases he.symm.trans hl

/-- A fetch fault is latched, and `pc` is not advanced (R61). -/
theorem step_of_not_fetchable (hl : s.live) (hpc : 0xFFF ≤ s.pc.toNat) :
    step s = .next (s.latch (.memOutOfBounds (if 4096 ≤ s.pc.toNat then s.pc.toNat else s.pc.toNat + 1))) := by
  rcases step_cases s with ⟨e, he, -⟩ | ⟨-, -, hs⟩ | ⟨-, hf, -⟩ | ⟨-, hf, -⟩
  · cases hl.symm.trans he
  · exact hs
  all_goals exact absurd hf (Nat.not_lt.2 hpc)

/-- An undefined encoding makes the step the advance alone (R64). -/
theorem step_of_decodeWord_eq_none (hl : s.live) (hf : s.fetchable) (hn : decodeWord s.word = none) :
    step s = .next s.advance := by
  rcases step_cases s with ⟨e, he, -⟩ | ⟨-, hpc, -⟩ | ⟨-, -, i, hi, -⟩ | ⟨-, -, -, hs⟩
  · cases hl.symm.trans he
  · exact absurd hf (Nat.not_lt.2 hpc)
  · cases hn.symm.trans hi
  · exact hs

/-! ### What the host gets back -/

/-- The host sees the next state, with the result read off its latch (R66). -/
theorem perform_step (h : step s = .next t) : perform .step s = (t, stepResult t) := by
  rw [perform, performStep, h]

/-- An error in the latch is what the step returns (R65, R66). -/
theorem perform_step_of_err {e : StepError} (h : step s = .next t) (he : t.err = some e) :
    perform .step s = (t, .stepError e) := by rw [perform_step h, stepResult, he]

/-- A step that ends with no error latched returns `Ok` (R66). -/
theorem perform_step_of_live (h : step s = .next t) (hl : t.live) : perform .step s = (t, .ok) := by
  rw [perform_step h, stepResult, hl]

/-! ### Every step answers -/

/-- Settles O9: the step ends without an instruction, or as the execute phase does, which always answers. -/
theorem everyStepAnswers : Obligations.EveryStepAnswers := by
  intro s
  rcases step_cases s with ⟨-, -, hs⟩ | ⟨-, -, hs⟩ | ⟨-, -, i, -, hs⟩ | ⟨-, -, -, hs⟩
  · exact ⟨_, hs⟩
  · exact ⟨_, hs⟩
  · obtain ⟨t, ht, -⟩ := exec_effect i s.advance
    exact ⟨t, hs.trans ht⟩
  · exact ⟨_, hs⟩

/-! ### Waits -/

/-- A wait takes back exactly the advance that the fetch made, also where that wrapped (R62, R67). -/
@[simp] theorem State.rewind_advance (s : State) : s.advance.rewind = s := by
  simp [State.rewind, State.advance, State.setPc]

/-- Dxyn waits without the permit (R106). -/
theorem exec_drw_of_no_permit (x y : Reg) (n : Nibble) (hp : s.permit = false) :
    exec (.drw x y n) s = .next s.rewind := by
  rcases exec_drw_cases x y n s with ⟨-, h⟩ | ⟨hp', -⟩ | ⟨hp', -⟩
  · exact h
  all_goals cases hp.symm.trans hp'

/-- Fx0A waits with no key down (R117). -/
theorem exec_ldVxK_of_no_key (x : Reg) (hk : ∀ k : Fin 16, s.key[k] = false) :
    exec (.ldVxK x) s = .next s.rewind := by
  rcases exec_ldVxK_cases x s with ⟨-, h⟩ | ⟨k, hsome, -⟩
  · exact h
  · cases (State.lowestKey_eq_none.2 hk).symm.trans hsome

/-- An instruction that waits gives the state before the step back (R67). -/
theorem step_of_exec_rewind (hl : s.live) (hf : s.fetchable) (hi : decodeWord s.word = some i)
    (hx : exec i s.advance = .next s.advance.rewind) : step s = .next s := by
  rw [step_eq_exec hl hf hi, hx, State.rewind_advance]

/-- Settles O10: both instructions wait on the advanced state, whose permit and keys are those of before. -/
theorem waitingStepChangesNothing : Obligations.WaitingStepChangesNothing := by
  rintro s hl hf (⟨⟨x, y, n, hi⟩, hp⟩ | ⟨⟨x, hi⟩, hk⟩)
  · exact perform_step_of_live (step_of_exec_rewind hl hf hi (exec_drw_of_no_permit x y n hp)) hl
  · exact perform_step_of_live (step_of_exec_rewind hl hf hi (exec_ldVxK_of_no_key x hk)) hl

/-! ### The decoded instruction, and an undefined encoding -/

/-- The advance adds 2 modulo 65536 (R62). -/
theorem State.advance_eq (s : State) : s.advance = { s with pc := BitVec.ofNat 16 ((s.pc.toNat + 2) % 65536) } := by
  have hpc : s.pc + 2 = BitVec.ofNat 16 ((s.pc.toNat + 2) % 65536) := by bv_omega
  rw [← hpc]
  rfl

/-- Settles O5: the state a decoded instruction runs on is the advanced one. -/
theorem stepRunsDecodedInstruction : Obligations.StepRunsDecodedInstruction := by
  intro s i hl hf hi
  rw [step_eq_exec hl hf hi, State.advance_eq]

/-- Every instruction's word selects the instruction's own row of the opcode map (R48): the family `OwnRow`, assembled. -/
theorem encode_selects_own_row : ∀ i : Instr, Laws.OwnRow.Statement i
  | .cls => Laws.OwnRow.cls
  | .ret => Laws.OwnRow.ret
  | .jp nnn => Laws.OwnRow.jp nnn
  | .call nnn => Laws.OwnRow.call nnn
  | .seImm x kk => Laws.OwnRow.seImm x kk
  | .sneImm x kk => Laws.OwnRow.sneImm x kk
  | .seReg x y => Laws.OwnRow.seReg x y
  | .ldImm x kk => Laws.OwnRow.ldImm x kk
  | .addImm x kk => Laws.OwnRow.addImm x kk
  | .ldReg x y => Laws.OwnRow.ldReg x y
  | .orReg x y => Laws.OwnRow.orReg x y
  | .andReg x y => Laws.OwnRow.andReg x y
  | .xorReg x y => Laws.OwnRow.xorReg x y
  | .addReg x y => Laws.OwnRow.addReg x y
  | .sub x y => Laws.OwnRow.sub x y
  | .shr x y => Laws.OwnRow.shr x y
  | .subn x y => Laws.OwnRow.subn x y
  | .shl x y => Laws.OwnRow.shl x y
  | .sneReg x y => Laws.OwnRow.sneReg x y
  | .ldI nnn => Laws.OwnRow.ldI nnn
  | .jpV0 nnn => Laws.OwnRow.jpV0 nnn
  | .rnd x kk => Laws.OwnRow.rnd x kk
  | .drw x y n => Laws.OwnRow.drw x y n
  | .skp x => Laws.OwnRow.skp x
  | .sknp x => Laws.OwnRow.sknp x
  | .ldVxDt x => Laws.OwnRow.ldVxDt x
  | .ldVxK x => Laws.OwnRow.ldVxK x
  | .ldDtVx x => Laws.OwnRow.ldDtVx x
  | .ldStVx x => Laws.OwnRow.ldStVx x
  | .addI x => Laws.OwnRow.addI x
  | .ldF x => Laws.OwnRow.ldF x
  | .ldB x => Laws.OwnRow.ldB x
  | .stRegs x => Laws.OwnRow.stRegs x
  | .ldRegs x => Laws.OwnRow.ldRegs x

/-- A word that spells an instruction is the instruction's encoding, so it selects that one's row. A word that selects no row
therefore spells none (R48, R50). -/
theorem decodeWord_eq_none_of_no_row {w : Word} (h : ∀ r ∈ opcodeTable, w &&& r.mask ≠ r.value) : decodeWord w = none := by
  refine Option.eq_none_iff_forall_ne_some.2 fun i hi => ?_
  obtain ⟨hmem, hsel⟩ := encode_selects_own_row i
  rw [encodeDecodeAgree w i hi] at hsel
  exact h _ hmem (beq_iff_eq.1 hsel)

/-- Settles O6: a word that selects no row decodes to none, and the advance latches no error. -/
theorem undefinedEncodingIsNoOp : Obligations.UndefinedEncodingIsNoOp :=
  fun _ hl hf hrow => perform_step_of_live (step_of_decodeWord_eq_none hl hf (decodeWord_eq_none_of_no_row hrow)) hl

/-! ### Errors -/

/-- Settles O7: the fault is what the step leaves in the latch, so it is what the step returns. -/
theorem fetchOutOfBoundsFaults : Obligations.FetchOutOfBoundsFaults :=
  fun s hl hpc => perform_step_of_err (step_of_not_fetchable hl hpc) (s.latch_err _)

/-- Settles O8: the state is kept, its latch with it, so the step returns the same error. -/
theorem latchedStepChangesNothing : Obligations.LatchedStepChangesNothing :=
  fun _ _ he => perform_step_of_err (step_of_err he) he

/-! ### A return after a call -/

/-- Settles O19: the call stores `pc` in the cell at `sp` and counts it, so that cell is the newest, and the return takes it. -/
theorem returnUndoesCall : Obligations.ReturnUndoesCall := by
  intro nnn s t u hsp ht hstack hspu
  rcases exec_call_cases nnn s with ⟨_, hcall⟩ | ⟨hfull, -⟩
  · obtain rfl := Host.Outcome.next.inj (ht.symm.trans hcall)
    have hcount : u.sp.val = s.sp.val + 1 := congrArg Fin.val hspu
    rcases exec_ret_cases u with ⟨k, hk, hret⟩ | ⟨hempty, -⟩
    · have hnewest : k.val = s.sp.val := by omega
      exact ⟨_, hret, by simp [hstack, hnewest], Fin.ext hnewest⟩
    · omega
  · omega

end Sys2Proof.Machine
end

section
/-! PROOFS. Control transfer (R70 to R78) and the index load (R95): what each instruction does to `pc`, `I` and the stack. -/

namespace Sys2Proof.Machine

variable {s : State}

/-! ### Zero-extended operands -/

/-- A 12-bit address keeps its value when it is zero-extended. -/
theorem toNat_zext16_addr (nnn : Addr12) : (zext16 nnn).toNat = nnn.toNat :=
  BitVec.toNat_setWidth_of_le (by decide)

/-- The sum of a 12-bit address and a byte fits in 16 bits, so it does not wrap. -/
theorem toNat_zext16_addr_add_byte (nnn : Addr12) (b : Byte) : (zext16 nnn + zext16 b).toNat = nnn.toNat + b.toNat := by
  bv_omega

/-! ### The stack -/

/-- 00EE with an address held (R70). -/
theorem exec_ret_of_sp {k : Fin 16} (hk : s.sp.val = k.val + 1) :
    exec .ret s = .next { s with sp := ⟨k.val, by omega⟩, pc := s.stack[k] } := by
  rcases exec_ret_cases s with ⟨j, hj, h⟩ | ⟨hempty, -⟩
  · obtain rfl : j = k := Fin.ext (by omega)
    exact h
  · omega

/-- 2nnn with room on the stack (R72). -/
theorem exec_call_of_sp_lt (nnn : Addr12) (h : s.sp.val < 16) :
    exec (.call nnn) s =
      .next { s with stack := s.stack.set s.sp.val s.pc h, sp := ⟨s.sp.val + 1, by omega⟩, pc := zext16 nnn } := by
  rcases exec_call_cases nnn s with ⟨_, hcall⟩ | ⟨hfull, -⟩
  · exact hcall
  · omega

/-- Settles O17: `sp = k + 1` picks out the popped cell, and the pop writes `pc` and `sp` alone. -/
theorem returnPopsNewestAddress : Obligations.ReturnPopsNewestAddress :=
  fun _ _ hk => ⟨_, exec_ret_of_sp hk, rfl, rfl, rfl⟩

/-- Settles O18: the pushed cell is the one at `sp`, every other cell is read through the write. -/
theorem callPushesAdvancedPc : Obligations.CallPushesAdvancedPc := by
  intro nnn s hsp
  refine ⟨_, exec_call_of_sp_lt nnn hsp, toNat_zext16_addr nnn, rfl, fun k => ?_, rfl⟩
  simp only [Fin.getElem_fin, Vector.getElem_set, eq_comm (a := k.val)]

/-! ### Jumps and the index load -/

/-- Settles O20: each form is one write of the zero-extended address. -/
theorem addressLoadsZeroExtend : Obligations.AddressLoadsZeroExtend :=
  ⟨fun nnn s => ⟨s.setPc (zext16 nnn), rfl, toNat_zext16_addr nnn, rfl⟩,
   fun nnn s => ⟨s.setIndex (zext16 nnn), rfl, toNat_zext16_addr nnn, rfl⟩⟩

/-- Settles O22: the jump's target is a sum that does not wrap. -/
theorem offsetJumpAddsV0 : Obligations.OffsetJumpAddsV0 :=
  fun nnn s => ⟨s.setPc (zext16 nnn + zext16 (s.reg 0)), rfl, toNat_zext16_addr_add_byte nnn (s.reg 0), rfl⟩

/-! ### Skips -/

/-- A skip writes `pc` alone (R78). -/
theorem State.skipIf_frame (s : State) (b : Bool) : { s.skipIf b with pc := s.pc } = s := by
  rw [State.skipIf_eq]

/-- Where a skip leaves `pc`, as a number (R78): 2 more, modulo 65536, exactly when the condition holds. -/
theorem State.toNat_skipIf_pc (s : State) (b : Bool) :
    (s.skipIf b).pc.toNat = if b then (s.pc.toNat + 2) % 65536 else s.pc.toNat := by
  cases b with
  | false => rfl
  | true => exact BitVec.toNat_add s.pc 2

/-- Skip when two bytes are equal (R73, R75). -/
theorem State.toNat_skipIf_beq_pc (s : State) (a b : Byte) :
    (s.skipIf (a == b)).pc.toNat = if a = b then (s.pc.toNat + 2) % 65536 else s.pc.toNat := by
  simp only [State.toNat_skipIf_pc, beq_iff_eq]

/-- Skip when two bytes differ (R74, R76). -/
theorem State.toNat_skipIf_bne_pc (s : State) (a b : Byte) :
    (s.skipIf (a != b)).pc.toNat = if a = b then s.pc.toNat else (s.pc.toNat + 2) % 65536 := by
  simp only [State.toNat_skipIf_pc, bne_iff_ne, ne_eq, ite_not]

/-- Settles O21: each form is one skip, on the equality of two bytes or on its negation. -/
theorem skipsMovePcOnly : Obligations.SkipsMovePcOnly :=
  ⟨fun _ _ s => ⟨_, rfl, s.skipIf_frame _, s.toNat_skipIf_beq_pc _ _⟩,
   fun _ _ s => ⟨_, rfl, s.skipIf_frame _, s.toNat_skipIf_bne_pc _ _⟩,
   fun _ _ s => ⟨_, rfl, s.skipIf_frame _, s.toNat_skipIf_beq_pc _ _⟩,
   fun _ _ s => ⟨_, rfl, s.skipIf_frame _, s.toNat_skipIf_bne_pc _ _⟩⟩

end Sys2Proof.Machine
end

section
/-! PROOFS. Register load, arithmetic, logic, shifts and random (R80 to R92): every form answers one write of a register, or one
of a result with its flag, so each statement is the reading of that write and the arithmetic of the byte written. -/

namespace Sys2Proof.Machine

variable {s : State} {x : Reg}

/-! ### What a result with its flag leaves in each register -/

theorem State.reg_setResult_flag (b : Byte) (f : Bool) : (s.setResult x b f).reg 15 = flagByte f :=
  (s.reg_setResult x b f 15).trans (if_pos rfl)

theorem State.reg_setResult_dest (hx : x ≠ 15) (b : Byte) (f : Bool) : (s.setResult x b f).reg x = b :=
  (s.reg_setResult x b f x).trans ((if_neg hx).trans (if_pos rfl))

theorem State.reg_setResult_of_ne (b : Byte) (f : Bool) (r : Reg) (hrx : r ≠ x) (hrf : r ≠ 15) :
    (s.setResult x b f).reg r = s.reg r :=
  (s.reg_setResult x b f r).trans ((if_neg hrf).trans (if_neg hrx))

/-! ### The flags as numbers (R92) -/

/-- A flag that is decided by `p` is 1 exactly when `p` holds (R11). -/
theorem flagByte_decide (p : Prop) [Decidable p] : flagByte (decide p) = if p then 1 else 0 := by
  simp only [flagByte, decide_eq_true_eq]

theorem flagByte_carry (a b : Byte) : flagByte (carry a b) = if a.toNat + b.toNat > 255 then 1 else 0 := flagByte_decide _

theorem flagByte_noBorrow (a b : Byte) : flagByte (noBorrow a b) = if a.toNat ≥ b.toNat then 1 else 0 := flagByte_decide _

theorem toNat_flagByte (f : Bool) : (flagByte f).toNat = f.toNat := by cases f <;> rfl

theorem toNat_flagByte_outRight (b : Byte) : (flagByte (outRight b)).toNat = b.toNat % 2 := by
  rw [toNat_flagByte, outRight, BitVec.getLsbD, Nat.toNat_testBit, Nat.pow_zero, Nat.div_one]

/-- Bit 7 is the top bit of a byte, so it is all that the division by 128 leaves. -/
theorem toNat_flagByte_outLeft (b : Byte) : (flagByte (outLeft b)).toNat = b.toNat / 128 := by
  rw [toNat_flagByte, outLeft, BitVec.getLsbD, Nat.toNat_testBit]
  omega

/-! ### The bytes written, as numbers -/

/-- Subtraction modulo 256 is the integer difference modulo 256 (R87, R89). -/
theorem intCast_toNat_sub_byte (a b : Byte) : ((a - b).toNat : Int) = (a.toNat - b.toNat : Int) % 256 := by
  rw [BitVec.toNat_sub]
  omega

theorem toNat_shiftRight_one (b : Byte) : (b >>> 1).toNat = b.toNat / 2 := by
  rw [BitVec.toNat_ushiftRight, Nat.shiftRight_one]

theorem toNat_shiftLeft_one (b : Byte) : (b <<< 1).toNat = b.toNat * 2 % 256 := by
  rw [BitVec.toNat_shiftLeft, Nat.shiftLeft_eq, Nat.pow_one]

/-- No bit outside the mask is left (R91). -/
theorem and_mask_and_not (b mask : Byte) : b &&& mask &&& ~~~mask = 0 := by
  rw [BitVec.and_assoc, BitVec.and_not_self]
  exact BitVec.and_zero

/-! ### Loads and the immediate add: one register, no flag -/

/-- Settles O23: each form is one register write. -/
theorem loadsSetOneRegister : Obligations.LoadsSetOneRegister :=
  ⟨fun x kk s => ⟨_, rfl, s.reg_setReg x kk, rfl⟩,
   fun x y s => ⟨_, rfl, s.reg_setReg x (s.reg y), rfl⟩⟩

/-- Settles O24: one register write, of a sum of bytes. -/
theorem addImmediateWraps : Obligations.AddImmediateWraps := by
  intro x kk s
  refine ⟨_, rfl, ?_, fun _ hr => s.reg_setReg_of_ne _ hr, rfl⟩
  rw [State.reg_setReg_self, BitVec.toNat_add]

/-- Settles O29: one register write, of a masked byte, and one count of the draw. -/
theorem randomByteIsMasked : Obligations.RandomByteIsMasked := by
  intro x kk s
  refine ⟨_, rfl, s.reg_setReg_self x _, ?_, rfl, fun _ hr => s.reg_setReg_of_ne _ hr, rfl⟩
  rw [State.countDraw_reg, State.reg_setReg_self, and_mask_and_not]

/-! ### A result with its flag, the flag last (R68) -/

/-- Settles O25: the result is bitwise, and the flag written after it is always 0. -/
theorem logicClearsFlag : Obligations.LogicClearsFlag :=
  ⟨fun _ _ _ => ⟨_, rfl, State.reg_setResult_flag _ _,
    fun hx _ => by rw [State.reg_setResult_dest hx, BitVec.getLsbD_or], State.reg_setResult_of_ne _ _, rfl⟩,
   fun _ _ _ => ⟨_, rfl, State.reg_setResult_flag _ _,
    fun hx _ => by rw [State.reg_setResult_dest hx, BitVec.getLsbD_and], State.reg_setResult_of_ne _ _, rfl⟩,
   fun _ _ _ => ⟨_, rfl, State.reg_setResult_flag _ _,
    fun hx _ => by rw [State.reg_setResult_dest hx, BitVec.getLsbD_xor], State.reg_setResult_of_ne _ _, rfl⟩⟩

/-- Settles O26: the flag is the carry of the operands as read before the write. -/
theorem addSetsCarry : Obligations.AddSetsCarry := by
  intro x y s
  refine ⟨_, rfl, ?_, fun hx => ?_, State.reg_setResult_of_ne _ _, rfl⟩
  · rw [State.reg_setResult_flag, flagByte_carry]
  · rw [State.reg_setResult_dest hx, BitVec.toNat_add]

/-- A subtraction written with its no-borrow bit, whichever register the minuend comes from. -/
theorem State.setResult_sub_noBorrow (s : State) (x : Reg) (a b : Byte) :
    (s.setResult x (a - b) (noBorrow a b)).reg 15 = (if a.toNat ≥ b.toNat then 1 else 0) ∧
    (x ≠ 15 → (((s.setResult x (a - b) (noBorrow a b)).reg x).toNat : Int) = (a.toNat - b.toNat : Int) % 256) ∧
    (∀ r, r ≠ x → r ≠ 15 → (s.setResult x (a - b) (noBorrow a b)).reg r = s.reg r) ∧
    { s.setResult x (a - b) (noBorrow a b) with v := s.v } = s := by
  refine ⟨?_, fun hx => ?_, State.reg_setResult_of_ne _ _, rfl⟩
  · rw [State.reg_setResult_flag, flagByte_noBorrow]
  · rw [State.reg_setResult_dest hx, intCast_toNat_sub_byte]

/-- Settles O27: both forms are one subtraction, with the operands exchanged. -/
theorem subtractsSetNoBorrow : Obligations.SubtractsSetNoBorrow :=
  ⟨fun x y s => ⟨_, rfl, s.setResult_sub_noBorrow x (s.reg x) (s.reg y)⟩,
   fun x y s => ⟨_, rfl, s.setResult_sub_noBorrow x (s.reg y) (s.reg x)⟩⟩

/-- Settles O28: the result and the flag are the two parts that a shift by one place cuts `V[y]` into. -/
theorem shiftsMoveVyIntoVx : Obligations.ShiftsMoveVyIntoVx := by
  refine ⟨fun x y s => ⟨_, rfl, ?_, fun hx => ?_, State.reg_setResult_of_ne _ _, rfl⟩,
    fun x y s => ⟨_, rfl, ?_, fun hx => ?_, State.reg_setResult_of_ne _ _, rfl⟩⟩
  · rw [State.reg_setResult_flag, toNat_flagByte_outRight]
  · rw [State.reg_setResult_dest hx, toNat_shiftRight_one]
  · rw [State.reg_setResult_flag, toNat_flagByte_outLeft]
  · rw [State.reg_setResult_dest hx, toNat_shiftLeft_one]

end Sys2Proof.Machine
end

section
/-! PROOFS. The index register and memory transfer (R96 to R100): the address arithmetic, then the accesses that are all in
bounds. A store is read back byte by byte, a load register by register. -/

namespace Sys2Proof.Machine

variable {s t : State}

/-! ### The index register, as a number -/

theorem toNat_zext16_byte (b : Byte) : (zext16 b).toNat = b.toNat := BitVec.toNat_setWidth_of_le (by decide)

/-- The index is moved past a transfer modulo 65536 (R99, R100). -/
theorem toNat_indexPast (i : Word) (x : Reg) : (indexPast i x).toNat = (i.toNat + x.toNat + 1) % 65536 := by
  rw [indexPast, BitVec.toNat_add, BitVec.toNat_ofNat, Nat.add_mod_mod, Nat.add_assoc]

/-- The font lies in memory, so no glyph address wraps, whatever the byte (R97, log 9). -/
theorem toNat_glyphAddress (c : Config) (v : Byte) : (glyphAddress c v).toNat = c.fontBase.val + 5 * v.toNat := by
  rw [glyphAddress, BitVec.toNat_ofNat, Nat.mod_eq_of_lt (by omega)]

/-- Settles O30: each form is one write of `I`. -/
theorem indexArithmetic : Obligations.IndexArithmetic := by
  refine ⟨fun x s => ⟨s.setIndex (s.i + zext16 (s.reg x)), rfl, ?_, rfl⟩,
    fun x s => ⟨s.setIndex (glyphAddress s.cfg (s.reg x)), rfl, toNat_glyphAddress s.cfg (s.reg x), rfl⟩⟩
  rw [State.setIndex_i, BitVec.toNat_add, toNat_zext16_byte]

/-! ### An access in bounds -/

/-- Where the bounds check passes, an instruction that either passes the check or raises its report passes it (R37). -/
theorem of_firstOutOfBounds_eq_none {a n : Nat} {inBounds : Prop} {raised : Nat → Prop}
    (hr : (firstOutOfBounds a n = none ∧ inBounds) ∨ ∃ bad, firstOutOfBounds a n = some bad ∧ raised bad)
    (h : a + n ≤ memSize) : inBounds := by
  rcases hr with ⟨-, hin⟩ | ⟨bad, hb, -⟩
  · exact hin
  · cases hb.symm.trans (firstOutOfBounds_eq_none.2 (.inr h))

/-- Fx33 in bounds (R98). -/
theorem exec_ldB_of_inBounds (x : Reg) (h : s.i.toNat + 2 < 4096) :
    exec (.ldB x) s = .next (s.writeBytes s.i.toNat (decimalDigits (s.reg x))) :=
  of_firstOutOfBounds_eq_none (exec_ldB_cases x s) h

/-- Fx55 in bounds (R99). -/
theorem exec_stRegs_of_inBounds {x : Reg} (h : s.i.toNat + x.toNat < 4096) :
    exec (.stRegs x) s = .next ((s.writeBytes s.i.toNat (s.regsUpTo x)).setIndex (indexPast s.i x)) :=
  of_firstOutOfBounds_eq_none (exec_stRegs_cases x s) h

/-- Fx65 in bounds (R100). -/
theorem exec_ldRegs_of_inBounds {x : Reg} (h : s.i.toNat + x.toNat < 4096) :
    exec (.ldRegs x) s =
      .next ((s.setRegsFrom 0 (s.readBytes s.i.toNat (x.toNat + 1))).setIndex (indexPast s.i x)) :=
  of_firstOutOfBounds_eq_none (exec_ldRegs_cases x s) h

/-! ### What a store leaves in memory -/

/-- The `k`-th byte stored from `a` is at `a + k`. -/
theorem State.readByte_writeBytes_add (s : State) (a : Nat) {bs : List Byte} {k : Nat} (hk : k < bs.length) :
    (s.writeBytes a bs).readByte (a + k) = bs[k] := by
  rw [State.readByte_writeBytes, dif_pos ⟨Nat.le_add_right a k, Nat.add_lt_add_left hk a⟩]
  congr 1
  omega

/-- A byte outside the run is kept (R36). -/
theorem State.readByte_writeBytes_of_outside (s : State) {a a' : Nat} {bs : List Byte}
    (h : a' < a ∨ a + bs.length ≤ a') : (s.writeBytes a bs).readByte a' = s.readByte a' := by
  rw [State.readByte_writeBytes, dif_neg (by omega)]

/-- With memory put back, a run of writes is undone. -/
theorem State.writeBytes_frame (s : State) (a : Nat) (bs : List Byte) : { s.writeBytes a bs with mem := s.mem } = s := by
  rw [State.writeBytes_eq]

/-- The digits spell the byte, hundreds first, and each is a decimal digit (R98). -/
theorem decimalDigits_spell (b : Byte) : ∃ d₂ d₁ d₀, decimalDigits b = [d₂, d₁, d₀] ∧
    d₂.toNat * 100 + d₁.toNat * 10 + d₀.toNat = b.toNat ∧ d₂.toNat ≤ 9 ∧ d₁.toNat ≤ 9 ∧ d₀.toNat ≤ 9 := by
  refine ⟨_, _, _, rfl, ?_⟩
  simp only [BitVec.toNat_ofNat]
  omega

/-- Settles O31: the three bytes stored from `I` are the digits of `V[x]`. -/
theorem decimalStoreWritesThreeDigits : Obligations.DecimalStoreWritesThreeDigits := by
  intro x s h
  obtain ⟨d₂, d₁, d₀, hdigits, hspell, h₂, h₁, h₀⟩ := decimalDigits_spell (s.reg x)
  have hexec := exec_ldB_of_inBounds x h
  rw [hdigits] at hexec
  have hread (k : Nat) (hk : k < 3) := s.readByte_writeBytes_add s.i.toNat (bs := [d₂, d₁, d₀]) hk
  have hread₂ : (s.writeBytes s.i.toNat [d₂, d₁, d₀]).readByte s.i.toNat = d₂ := hread 0 (by decide)
  have hread₁ : (s.writeBytes s.i.toNat [d₂, d₁, d₀]).readByte (s.i.toNat + 1) = d₁ := hread 1 (by decide)
  have hread₀ : (s.writeBytes s.i.toNat [d₂, d₁, d₀]).readByte (s.i.toNat + 2) = d₀ := hread 2 (by decide)
  refine ⟨_, hexec, ?_⟩
  rw [hread₂, hread₁, hread₀]
  exact ⟨hspell, h₂, h₁, h₀, fun a ha => s.readByte_writeBytes_of_outside ha, s.writeBytes_frame _ _⟩

/-- A stored run of registers holds `V[r]` at its `r`-th byte (R99). -/
theorem State.readByte_writeBytes_regsUpTo (s : State) (a : Nat) {x r : Reg} (hr : r.toNat ≤ x.toNat) :
    (s.writeBytes a (s.regsUpTo x)).readByte (a + r.toNat) = s.reg r := by
  have hlen : r.toNat < (s.regsUpTo x).length := by rw [State.length_regsUpTo]; omega
  rw [State.readByte_writeBytes_add s a hlen, State.getElem_regsUpTo]

/-- Settles O32: a run of writes of `V[0]` to `V[x]`, and one write of `I`. -/
theorem storeRegistersWritesRun : Obligations.StoreRegistersWritesRun := by
  intro x s h
  refine ⟨_, exec_stRegs_of_inBounds h, fun r hr => s.readByte_writeBytes_regsUpTo _ hr, fun a ha => ?_,
    toNat_indexPast s.i x, congrArg (State.setIndex · s.i) (s.writeBytes_frame _ _)⟩
  exact s.readByte_writeBytes_of_outside (by rw [State.length_regsUpTo]; omega)

/-! ### What a load leaves in the registers -/

/-- With the registers put back, loading a list of them is undone. -/
theorem State.setRegsFrom_frame (s : State) (k : Nat) (bs : List Byte) : { s.setRegsFrom k bs with v := s.v } = s := by
  rw [State.setRegsFrom_eq]

/-- `V[0]` to `V[x]` loaded from the run at `a`: `V[r]` is its `r`-th byte, and the registers above `V[x]` are kept (R100). -/
theorem State.reg_setRegsFrom_readBytes (s : State) (a : Nat) (x r : Reg) :
    (s.setRegsFrom 0 (s.readBytes a (x.toNat + 1))).reg r =
      if r.toNat ≤ x.toNat then s.readByte (a + r.toNat) else s.reg r := by
  rw [State.reg_setRegsFrom]
  split
  · next hlisted =>
    rw [State.length_readBytes] at hlisted
    rw [State.getElem_readBytes, if_pos (by omega), Nat.sub_zero]
  · next hnot =>
    rw [State.length_readBytes] at hnot
    rw [if_neg (by omega)]

/-- Settles O33: a load of `V[0]` to `V[x]`, and one write of `I`. -/
theorem loadRegistersReadsRun : Obligations.LoadRegistersReadsRun := by
  intro x s h
  exact ⟨_, exec_ldRegs_of_inBounds h, s.reg_setRegsFrom_readBytes s.i.toNat x, toNat_indexPast s.i x,
    congrArg (State.setIndex · s.i) (s.setRegsFrom_frame _ _)⟩

/-! ### A load after a store -/

/-- What an address reads depends on memory and the parameters alone. -/
theorem State.readByte_congr (hmem : s.mem = t.mem) (hcfg : s.cfg = t.cfg) (a : Nat) : s.readByte a = t.readByte a := by
  simp only [State.readByte, hmem, hcfg]

/-- Settles O34: the load reads each byte where the store put it, since the store keeps the parameters. -/
theorem storeThenLoadRestoresRegisters : Obligations.StoreThenLoadRestoresRegisters := by
  intro x s t u h hstore hi hmem hcfg
  obtain ⟨t', hstore', hstored, -⟩ := storeRegistersWritesRun x s h
  obtain rfl := Host.Outcome.next.inj (hstore'.symm.trans hstore)
  obtain ⟨w, hload, hloaded, -⟩ := loadRegistersReadsRun x u (by rwa [hi])
  refine ⟨w, hload, fun r hr => ?_⟩
  have hcfg' : u.cfg = t'.cfg := hcfg.trans (Effect.of_exec hstore).cfg_eq.symm
  calc w.reg r = u.readByte (u.i.toNat + r.toNat) := by rw [hloaded, if_pos hr]
    _ = t'.readByte (s.i.toNat + r.toNat) := by rw [hi, State.readByte_congr hmem hcfg']
    _ = s.reg r := hstored r hr

end Sys2Proof.Machine
end

section
/-! PROOFS. The display (R105 to R112) and the two waits (R106, R117): a draw is its sprite's set of targets, the pixels that
`spriteCovers` names, each toggled once. -/

namespace Sys2Proof.Machine

variable {s : State} {x y : Reg} {n : Nibble}

/-! ### The targets of a sprite are the pixels it covers -/

/-- A sprite bit falls on the pixel of its unwrapped place, which is one of the screen (R108). -/
theorem target_clip_eq_some {px py col row : Nat} {tx : Fin 64} {ty : Fin 32} :
    target .clip px py col row = some (tx, ty) ↔ tx.val = px + col ∧ ty.val = py + row := by
  simp only [target, Option.dite_none_right_eq_some, Option.some.injEq, Prod.mk.injEq, Fin.ext_iff, exists_prop]
  omega

/-- A sprite bit falls on the pixel of its place modulo the screen's sizes (R109). -/
theorem target_wrap_eq_some {px py col row : Nat} {tx : Fin 64} {ty : Fin 32} :
    target .wrap px py col row = some (tx, ty) ↔ tx.val = (px + col) % 64 ∧ ty.val = (py + row) % 32 := by
  simp only [target, Option.some.injEq, Prod.mk.injEq, Fin.ext_iff, eq_comm]

theorem some_mem_spriteTargets_iff_spriteCovers {tx : Fin 64} {ty : Fin 32} :
    some (tx, ty) ∈ spriteTargets s.cfg.edgePolicy ((s.reg x).toNat % 64) ((s.reg y).toNat % 32) 0
      (s.readBytes s.i.toNat n.toNat) ↔ spriteCovers s x y n tx ty := by
  simp only [mem_spriteTargets, spriteCovers, State.length_readBytes, State.getElem_readBytes, Nat.zero_add, exists_prop,
    eq_comm (a := some (tx, ty))]
  cases s.cfg.edgePolicy with
  | clip => simp only [target_clip_eq_some]
  | wrap => simp only [target_wrap_eq_some]

/-! ### A draw with the permit -/

/-- The picture and the collision that Dxyn draws, read from the state before it (R68). -/
def State.drawnCanvas (s : State) (x y : Reg) (n : Nibble) : Canvas :=
  drawSprite s.cfg.edgePolicy (s.reg x) (s.reg y) (s.readBytes s.i.toNat n.toNat) s.disp

/-- Dxyn with the permit and its sprite in memory (R107, R110, R111). -/
theorem exec_drw_of_inBounds (x y : Reg) (hp : s.permit = true) (hn : spriteInBounds s n) :
    exec (.drw x y n) s = .next (s.finishDraw (s.drawnCanvas x y n)) := by
  rcases exec_drw_cases_of_permit x y n hp with ⟨-, h⟩ | ⟨bad, hbad, -⟩
  · exact h
  · have hn' : n.toNat = 0 ∨ s.i.toNat + n.toNat ≤ memSize := hn.imp_left (congrArg BitVec.toNat)
    cases hbad.symm.trans (firstOutOfBounds_eq_none.2 hn')

/-- No sprite has more rows than the screen, so the sprite engine's account holds of every one. -/
theorem State.length_spriteBytes_le (s : State) (n : Nibble) : (s.readBytes s.i.toNat n.toNat).length ≤ 32 := by
  rw [State.length_readBytes]
  omega

/-- A pixel is on after the draw when exactly one holds: it was on before, or the sprite covers it. -/
theorem State.pixelOf_drawnCanvas (s : State) (x y : Reg) (n : Nibble) (tx : Fin 64) (ty : Fin 32) :
    pixelOf (s.drawnCanvas x y n).disp (tx, ty) = true ↔
      ¬ (pixelOf s.disp (tx, ty) = true ↔ spriteCovers s x y n tx ty) := by
  obtain ⟨hpixel, -⟩ := drawSprite_spec s.cfg.edgePolicy (s.reg x) (s.reg y) _ s.disp (s.length_spriteBytes_le n)
  rw [State.drawnCanvas, hpixel, ← some_mem_spriteTargets_iff_spriteCovers, bne_iff_ne, ne_eq, Bool.eq_iff_iff,
    decide_eq_true_iff]

theorem State.hit_drawnCanvas (s : State) (x y : Reg) (n : Nibble) :
    (s.drawnCanvas x y n).hit = true ↔ spriteHits s x y n := by
  obtain ⟨-, hhit⟩ := drawSprite_spec s.cfg.edgePolicy (s.reg x) (s.reg y) _ s.disp (s.length_spriteBytes_le n)
  rw [State.drawnCanvas, hhit, Prod.exists]
  simp only [some_mem_spriteTargets_iff_spriteCovers, spriteHits]

theorem State.reg_finishDraw (s : State) (c : Canvas) (r : Reg) :
    (s.finishDraw c).reg r = if r = flagReg then flagByte c.hit else s.reg r := s.reg_setFlag c.hit r

/-- `VF` reports the collision (R110). -/
theorem State.reg_flag_finishDraw (s : State) (c : Canvas) : (s.finishDraw c).reg 15 = flagByte c.hit :=
  (s.reg_finishDraw c 15).trans (if_pos rfl)

/-- Settles O38: the draw leaves the canvas of the sprite's targets, which are the pixels the sprite covers. -/
theorem drawTogglesCoveredPixels : Obligations.DrawTogglesCoveredPixels := by
  intro x y n s hp hn
  refine ⟨_, exec_drw_of_inBounds x y hp hn, s.pixelOf_drawnCanvas x y n, fun hhits => ?_, fun hmiss => ?_, fun r hr => ?_,
    rfl, rfl⟩
  · rw [State.reg_flag_finishDraw, (s.hit_drawnCanvas x y n).2 hhits]
    rfl
  · rw [State.reg_flag_finishDraw, Bool.eq_false_iff.2 fun h => hmiss ((s.hit_drawnCanvas x y n).1 h)]
    rfl
  · exact (s.reg_finishDraw _ r).trans (if_neg hr)

/-! ### The same sprite drawn twice -/

section Twice

variable {pol : EdgePolicy} {vx vy : Byte} {bs : List Byte}

/-- Each pixel is toggled by both draws or by neither (R112). -/
theorem drawSprite_drawSprite_disp (h : bs.length ≤ 32) (d : Display) :
    (drawSprite pol vx vy bs (drawSprite pol vx vy bs d).disp).disp = d := by
  refine display_ext fun q => ?_
  rw [(drawSprite_spec pol vx vy bs _ h).1, (drawSprite_spec pol vx vy bs d h).1, Bool.xor_assoc, Bool.xor_self, Bool.xor_false]

/-- A target that is off before the first draw is on before the second, so one of the two collides on it (R110, R112). -/
theorem drawSprite_hit_or_hit (h : bs.length ≤ 32) (d : Display) {q : Pixel}
    (hq : some q ∈ spriteTargets pol (vx.toNat % 64) (vy.toNat % 32) 0 bs) :
    (drawSprite pol vx vy bs d).hit = true ∨ (drawSprite pol vx vy bs (drawSprite pol vx vy bs d).disp).hit = true := by
  obtain ⟨hpixel, hhit⟩ := drawSprite_spec pol vx vy bs d h
  cases hon : pixelOf d q with
  | true => exact .inl (hhit.2 ⟨q, hq, hon⟩)
  | false =>
    have hon' : pixelOf (drawSprite pol vx vy bs d).disp q = true := by
      rw [hpixel, hon, decide_eq_true hq, Bool.false_xor]
    exact .inr ((drawSprite_spec pol vx vy bs _ h).2.2 ⟨q, hq, hon'⟩)

end Twice

/-- A draw depends on the parameters, `I`, the two coordinates, the sprite's bytes and the picture alone. -/
theorem State.drawnCanvas_eq_drawSprite {s u : State} (hcfg : u.cfg = s.cfg) (hi : u.i = s.i) (hx : u.reg x = s.reg x)
    (hy : u.reg y = s.reg y) (hbytes : ∀ k < n.toNat, u.readByte (s.i.toNat + k) = s.readByte (s.i.toNat + k)) :
    u.drawnCanvas x y n =
      drawSprite s.cfg.edgePolicy (s.reg x) (s.reg y) (s.readBytes s.i.toNat n.toNat) u.disp := by
  rw [State.drawnCanvas, hcfg, hi, hx, hy, State.readBytes_congr hbytes]

/-- Settles O39: the second draw has the sprite and the place of the first, and starts from the picture the first left. -/
theorem drawingTwiceCancels : Obligations.DrawingTwiceCancels := by
  intro x y n s t u hp hn ht hpu hcfg hi hx hy hbytes hdisp
  obtain rfl := Host.Outcome.next.inj ((exec_drw_of_inBounds x y hp hn).symm.trans ht)
  have hsecond : u.drawnCanvas x y n = drawSprite s.cfg.edgePolicy (s.reg x) (s.reg y) (s.readBytes s.i.toNat n.toNat)
      (s.drawnCanvas x y n).disp := by
    rw [State.drawnCanvas_eq_drawSprite hcfg hi hx hy hbytes, hdisp]
    rfl
  have hlen := s.length_spriteBytes_le n
  refine ⟨_, exec_drw_of_inBounds x y hpu (by rwa [spriteInBounds, hi]), ?_, fun ⟨tx, ty, hcovers⟩ => ?_⟩
  · exact (congrArg Canvas.disp hsecond).trans (drawSprite_drawSprite_disp hlen s.disp)
  · rw [State.reg_flag_finishDraw, State.reg_flag_finishDraw, hsecond]
    have hhit := drawSprite_hit_or_hit hlen s.disp (some_mem_spriteTargets_iff_spriteCovers.2 hcovers)
    exact hhit.imp (congrArg flagByte) (congrArg flagByte)

/-! ### Clear, and the waits -/

/-- Settles O37: one write of the display, which looks at no permit. -/
theorem clearTurnsPixelsOff : Obligations.ClearTurnsPixelsOff :=
  fun s => ⟨s.setDisplay blankDisplay, rfl, pixelOf_blankDisplay, rfl⟩

/-- A wait takes `pc` back by 2 modulo 65536 (R67). -/
theorem State.toNat_rewind_pc (s : State) : s.rewind.pc.toNat = (s.pc.toNat + 65534) % 65536 := by
  rw [State.rewind_pc]
  bv_omega

/-- Settles O44: both instructions wait by the rewind, which writes `pc` alone. -/
theorem waitsOnlyRewindPc : Obligations.WaitsOnlyRewindPc :=
  ⟨fun x y n s hp => ⟨s.rewind, exec_drw_of_no_permit x y n hp, s.toNat_rewind_pc, rfl⟩,
   fun x s hk => ⟨s.rewind, exec_ldVxK_of_no_key x hk, s.toNat_rewind_pc, rfl⟩⟩

end Sys2Proof.Machine
end

section
/-! PROOFS. The keypad and the timers (R115 to R120): the key skips, the key wait with a key down, and the timer transfers. -/

namespace Sys2Proof.Machine

variable {s : State} {k : Fin 16}

/-! ### Key skips -/

/-- Ex9E with a key index in range (R115). -/
theorem exec_skp_of_keyIndex {x : Reg} (hx : (s.reg x).toNat = k.val) :
    exec (.skp x) s = .next (s.skipIf s.key[k]) := by
  rcases exec_skp_cases x s with ⟨j, hj, h⟩ | ⟨hout, -⟩
  · obtain rfl : j = k := Fin.ext (hj.symm.trans hx)
    exact h
  · omega

/-- ExA1 with a key index in range (R116). -/
theorem exec_sknp_of_keyIndex {x : Reg} (hx : (s.reg x).toNat = k.val) :
    exec (.sknp x) s = .next (s.skipIf (!s.key[k])) := by
  rcases exec_sknp_cases x s with ⟨j, hj, h⟩ | ⟨hout, -⟩
  · obtain rfl : j = k := Fin.ext (hj.symm.trans hx)
    exact h
  · omega

/-- Skip when a key is up (R116). -/
theorem State.toNat_skipIf_not_pc (s : State) (b : Bool) :
    (s.skipIf (!b)).pc.toNat = if b then s.pc.toNat else (s.pc.toNat + 2) % 65536 := by
  cases b with
  | false => exact s.toNat_skipIf_pc true
  | true => exact s.toNat_skipIf_pc false

/-- Settles O40: each form is one skip, on the key's level or on its negation. -/
theorem keySkipsFollowLatch : Obligations.KeySkipsFollowLatch :=
  ⟨fun _ s _ hx => ⟨_, exec_skp_of_keyIndex hx, s.skipIf_frame _, s.toNat_skipIf_pc _⟩,
   fun _ s _ hx => ⟨_, exec_sknp_of_keyIndex hx, s.skipIf_frame _, s.toNat_skipIf_not_pc _⟩⟩

/-! ### The key wait with a key down -/

/-- Fx0A when `k` is the lowest pressed key (R117). -/
theorem exec_ldVxK_of_lowest (x : Reg) (hk : s.key[k] = true) (hlow : ∀ j : Fin 16, j < k → s.key[j] = false) :
    exec (.ldVxK x) s = .next
      (if s.cfg.keyWaitClears then (s.setReg x (BitVec.ofNat 8 k.val)).setKeyCell k.val false
       else s.setReg x (BitVec.ofNat 8 k.val)) := by
  have hlowest : s.lowestKey = some k.val := State.lowestKey_eq_some.2 ⟨k, rfl, hk, hlow⟩
  rcases exec_ldVxK_cases x s with ⟨hnone, -⟩ | ⟨m, hm, h⟩
  · cases hnone.symm.trans hlowest
  · obtain rfl : m = k.val := Option.some.inj (hm.symm.trans hlowest)
    exact h

/-- A key's level after one latch cell is written. -/
theorem State.key_setKeyCell (s : State) (k j : Fin 16) (b : Bool) :
    (s.setKeyCell k.val b).key[j] = if j = k then b else s.key[j] := by
  simp only [State.setKeyCell_key, Fin.getElem_fin, Vector.getElem_setIfInBounds, Fin.ext_iff, eq_comm (a := k.val)]

/-- The byte of a key's index has the index as its value. -/
theorem toNat_keyByte (k : Fin 16) : (BitVec.ofNat 8 k.val).toNat = k.val :=
  Nat.mod_eq_of_lt (by omega)

/-- Settles O41, by the clearing policy: with it the cell `k` is written beside `V[x]`, without it `V[x]` alone (D13). -/
theorem keyWaitCommitsLowestKey : Obligations.KeyWaitCommitsLowestKey := by
  intro x s k hk hlow
  have hx : ((s.setReg x (BitVec.ofNat 8 k.val)).reg x).toNat = k.val := by
    rw [State.reg_setReg_self, toNat_keyByte]
  have hr : ∀ r, r ≠ x → (s.setReg x (BitVec.ofNat 8 k.val)).reg r = s.reg r := fun _ => s.reg_setReg_of_ne _
  refine ⟨_, exec_ldVxK_of_lowest x hk hlow, ?_⟩
  cases hc : s.cfg.keyWaitClears with
  | true => exact ⟨hx, hr, fun j => by simpa using s.key_setKeyCell k j false, rfl⟩
  | false => exact ⟨hx, hr, fun j => by simp, rfl⟩

/-! ### Timer transfers -/

/-- The tone is on exactly when the sound timer is not 0 (R17). -/
theorem isTonePlaying_iff : isTonePlaying s = true ↔ s.st ≠ 0 := bne_iff_ne

/-- Settles O42: each form is one write, of a register or of a timer; the tone is read off the timer written. -/
theorem timerTransfers : Obligations.TimerTransfers :=
  ⟨fun x s => ⟨s.setReg x s.dt, rfl, s.reg_setReg x s.dt, rfl⟩,
   fun x s => ⟨s.setDelay (s.reg x), rfl, rfl, rfl⟩,
   fun x s => ⟨s.setSound (s.reg x), rfl, rfl, isTonePlaying_iff, rfl⟩⟩

end Sys2Proof.Machine
end

section
/-! PROOFS. The errors of instructions (R121, R125 to R133): which one an instruction raises in a state, and that it does nothing
else when it raises one. -/

namespace Sys2Proof.Machine

variable {i : Instr} {s t : State}

/-! ### The stack and key checks -/

/-- 2nnn with sixteen addresses held (R126). -/
theorem exec_call_of_full (nnn : Addr12) (h : s.sp.val = 16) : exec (.call nnn) s = .next (s.latch .stackOverflow) := by
  rcases exec_call_cases nnn s with ⟨hlt, -⟩ | ⟨-, hraise⟩
  · omega
  · exact hraise

/-- 00EE with no address held (R127). -/
theorem exec_ret_of_empty (h : s.sp.val = 0) : exec .ret s = .next (s.latch .stackUnderflow) := by
  rcases exec_ret_cases s with ⟨k, hk, -⟩ | ⟨-, hraise⟩
  · omega
  · exact hraise

/-- Ex9E with a key index above 15 (R121). -/
theorem exec_skp_of_keyIndex_gt {x : Reg} (h : (s.reg x).toNat > 15) :
    exec (.skp x) s = .next (s.latch (.keyIndexOutOfRange (s.reg x))) := by
  rcases exec_skp_cases x s with ⟨k, hk, -⟩ | ⟨-, hraise⟩
  · omega
  · exact hraise

/-- ExA1 with a key index above 15 (R121). -/
theorem exec_sknp_of_keyIndex_gt {x : Reg} (h : (s.reg x).toNat > 15) :
    exec (.sknp x) s = .next (s.latch (.keyIndexOutOfRange (s.reg x))) := by
  rcases exec_sknp_cases x s with ⟨k, hk, -⟩ | ⟨-, hraise⟩
  · omega
  · exact hraise

/-- Settles O43: each check fails in the states named, and raising is the latch alone. -/
theorem stackAndKeyChecksRaise : Obligations.StackAndKeyChecksRaise :=
  ⟨fun nnn _ h => exec_call_of_full nnn h, fun _ h => exec_ret_of_empty h,
   fun _ _ h => ⟨exec_skp_of_keyIndex_gt h, exec_sknp_of_keyIndex_gt h⟩⟩

/-! ### An error is precise -/

/-- An instruction latches an error and does nothing else, or leaves the latch as it was. -/
theorem Effect.eq_latch_or_err_eq (h : Effect i s t) : (∃ e, t = s.latch e) ∨ t.err = s.err := by
  cases h with
  | raised e => exact .inl ⟨e, rfl⟩
  | _ => exact .inr rfl

/-- Settles O48: from a live state, an instruction that leaves the latch as it was leaves it empty. -/
theorem errorsArePrecise : Obligations.ErrorsArePrecise := by
  intro i s t e hl h he
  rcases (Effect.of_exec h).eq_latch_or_err_eq with ⟨e', rfl⟩ | hkept
  · obtain rfl : e' = e := Option.some.inj he
    rfl
  · cases he.symm.trans (hkept.trans hl)

/-! ### Which error -/

/-- An instruction that passes the bounds check and keeps the latch, or raises the check's report, leaves in the latch the error of
that access (R37). -/
theorem exists_err_eq_accessError {a n : Nat} {r : Result} (hl : s.live)
    (hr : (firstOutOfBounds a n = none ∧ r = .next t) ∨
      ∃ bad, firstOutOfBounds a n = some bad ∧ r = .next (s.latch (.memOutOfBounds bad)))
    (ht : t.err = s.err) :
    ∃ u, r = .next u ∧ u.err = accessError a n := by
  rcases hr with ⟨hin, h⟩ | ⟨bad, hbad, h⟩
  · exact ⟨t, h, by rw [ht, hl, accessError, hin, Option.map_none]⟩
  · exact ⟨_, h, by rw [accessError, hbad, Option.map_some, State.latch_err]⟩

@[simp] theorem State.skipIf_err (s : State) (b : Bool) : (s.skipIf b).err = s.err := by
  rw [State.skipIf_eq]

@[simp] theorem State.setRegsFrom_err (s : State) (k : Nat) (bs : List Byte) : (s.setRegsFrom k bs).err = s.err := by
  rw [State.setRegsFrom_eq]

/-- From a live state, the latch after an instruction is the entry of the table of R125: each instruction that can raise has its
one check (R132), and the others write no latch. -/
theorem exec_err_eq_errorOf (i : Instr) (hl : s.live) : ∃ t, exec i s = .next t ∧ t.err = errorOf i s := by
  cases i with
  | ret =>
    rcases exec_ret_cases s with ⟨k, hk, h⟩ | ⟨hempty, h⟩
    · exact ⟨_, h, hl.trans (if_neg (by omega)).symm⟩
    · exact ⟨_, h, (if_pos hempty).symm⟩
  | call nnn =>
    rcases exec_call_cases nnn s with ⟨hlt, h⟩ | ⟨hfull, h⟩
    · exact ⟨_, h, hl.trans (if_neg (by omega)).symm⟩
    · exact ⟨_, h, (if_pos hfull).symm⟩
  | skp x =>
    rcases exec_skp_cases x s with ⟨k, hk, h⟩ | ⟨hgt, h⟩
    · exact ⟨_, h, (s.skipIf_err _).trans (hl.trans (if_neg (by omega)).symm)⟩
    · exact ⟨_, h, (if_pos hgt).symm⟩
  | sknp x =>
    rcases exec_sknp_cases x s with ⟨k, hk, h⟩ | ⟨hgt, h⟩
    · exact ⟨_, h, (s.skipIf_err _).trans (hl.trans (if_neg (by omega)).symm)⟩
    · exact ⟨_, h, (if_pos hgt).symm⟩
  | drw x y n =>
    cases hp : s.permit with
    | false => exact ⟨_, exec_drw_of_no_permit x y n hp, by rw [errorOf, hp]; exact hl⟩
    | true =>
      rw [errorOf, if_pos hp]
      exact exists_err_eq_accessError hl (exec_drw_cases_of_permit x y n hp) rfl
  | ldB x => exact exists_err_eq_accessError hl (exec_ldB_cases x s) (s.writeBytes_err _ _)
  | stRegs x => exact exists_err_eq_accessError hl (exec_stRegs_cases x s) (s.writeBytes_err _ _)
  | ldRegs x => exact exists_err_eq_accessError hl (exec_ldRegs_cases x s) (s.setRegsFrom_err _ _)
  | ldVxK x =>
    rcases exec_ldVxK_cases x s with ⟨-, h⟩ | ⟨k, -, h⟩
    · exact ⟨_, h, hl⟩
    · exact ⟨_, h, by split <;> exact hl⟩
  | seImm | sneImm | seReg | sneReg => exact ⟨_, rfl, (s.skipIf_err _).trans hl⟩
  | cls | jp | ldImm | addImm | ldReg | orReg | andReg | xorReg | addReg | sub | shr | subn | shl | ldI | jpV0 | rnd
  | ldVxDt | ldDtVx | ldStVx | addI | ldF => exact ⟨_, rfl, hl⟩

/-- Settles O49: the execute phase has one answer, and its latch is the table's entry. -/
theorem errorsAreTheListedOnes : Obligations.ErrorsAreTheListedOnes := by
  intro i s t hl h
  obtain ⟨u, hu, herr⟩ := exec_err_eq_errorOf i hl
  rwa [Host.Outcome.next.inj (h.symm.trans hu)]

end Sys2Proof.Machine
end

section
/-! PROOFS. The host's operations (R134, R136 to R142): what each does to the state, and what a run of them keeps. -/

namespace Sys2Proof.Machine

variable {s : State}

/-! ### Ticks -/

theorem toNat_countDown (b : Byte) : (countDown b).toNat = b.toNat - 1 := by
  unfold countDown
  split
  · next h => simp [h]
  · next h => bv_omega

theorem toNat_iterate_countDown (k : Nat) (b : Byte) : (countDown^[k] b).toNat = b.toNat - k := by
  induction k generalizing b with
  | zero => rfl
  | succ k ih =>
    rw [Function.iterate_succ_apply, ih, toNat_countDown]
    omega

/-- A run of ticks counts each timer down, and does nothing else (R136). -/
theorem runOps_ticks (k : Nat) (s : State) :
    runOps (List.replicate k .tick) s = { s with dt := countDown^[k] s.dt, st := countDown^[k] s.st } := by
  induction k generalizing s with
  | zero => rfl
  | succ k ih => exact ih (tick s)

/-- The tone is on exactly when the sound timer is above 0 (R17). -/
theorem isTonePlaying_iff_pos : isTonePlaying s = true ↔ 0 < s.st.toNat := by
  rw [isTonePlaying_iff]
  bv_omega

/-- Settles O45: after the ticks the sound timer is above 0 exactly when it was above `k`. -/
theorem ticksCountTimersDown : Obligations.TicksCountTimersDown := by
  intro k s
  have hst := toNat_iterate_countDown k s.st
  refine ⟨_, runOps_ticks k s, toNat_iterate_countDown k s.dt, hst, ?_, rfl⟩
  rw [isTonePlaying_iff_pos, hst]
  exact Nat.sub_pos_iff_lt

/-! ### Reads -/

/-- Settles O46: both operations answer the state they got. -/
theorem hostReadsArePure : Obligations.HostReadsArePure := by
  intro s
  have htone : isTonePlaying s = decide (s.st.toNat ≠ 0) := by
    rw [Bool.eq_iff_iff, isTonePlaying_iff_pos, decide_eq_true_iff, Nat.pos_iff_ne_zero]
  exact ⟨congrArg (fun on => (s, OpResult.tone on)) htone, s.disp, rfl, fun _ => rfl⟩

/-! ### Setters -/

/-- An index of 0 to 15 writes its one cell, and any other does nothing (R138). -/
theorem setKey_cases (index : Int) (pressed : Bool) (s : State) :
    (∃ k : Fin 16, (k.val : Int) = index ∧ setKey index pressed s = s.setKeyCell k.val pressed) ∨
    ((∀ k : Fin 16, (k.val : Int) ≠ index) ∧ setKey index pressed s = s) := by
  unfold setKey
  split
  · next h => exact .inl ⟨⟨index.toNat, by omega⟩, Int.toNat_of_nonneg h.1, rfl⟩
  · exact .inr ⟨fun k => by omega, rfl⟩

/-- `setKey` changes the keypad alone (R138). -/
theorem setKey_eq (index : Int) (pressed : Bool) (s : State) :
    setKey index pressed s = { s with key := (setKey index pressed s).key } := by
  rcases setKey_cases index pressed s with ⟨k, -, h⟩ | ⟨-, h⟩
  · rw [h]
    rfl
  · rw [h]

theorem key_setKey (index : Int) (pressed : Bool) (s : State) (j : Fin 16) :
    (setKey index pressed s).key[j] = if (j.val : Int) = index then pressed else s.key[j] := by
  rcases setKey_cases index pressed s with ⟨k, rfl, h⟩ | ⟨hout, h⟩
  · rw [h, State.key_setKeyCell]
    simp only [Nat.cast_inj, Fin.ext_iff]
  · rw [h, if_neg (hout j)]

/-- Settles O47: `setKey` changes the keypad alone, and there the cell `index` alone. -/
theorem hostSettersSetOneBit : Obligations.HostSettersSetOneBit :=
  ⟨fun index pressed s => ⟨_, rfl, key_setKey index pressed s, by rw [setKey_eq]⟩,
   fun ready s => ⟨s.setPermit ready, rfl, rfl, rfl⟩⟩

/-! ### Loads -/

/-- A load resets the machine and copies the image, or is too large and does nothing (R151, R152). -/
theorem perform_loadProgram_cases (bytes : List Byte) (s : State) :
    (bytes.length ≤ maxRom ∧
      perform (.loadProgram bytes) s = ((construct s).writeBytes progBase bytes, .ok)) ∨
    (maxRom < bytes.length ∧ perform (.loadProgram bytes) s = (s, .loadError .romTooLarge)) := by
  by_cases h : bytes.length ≤ maxRom
  · exact .inl ⟨h, by simp [perform, loadProgram, imageFits, h]⟩
  · exact .inr ⟨Nat.lt_of_not_le h, by simp [perform, loadProgram, imageFits, h]⟩

/-! ### What each operation keeps -/

/-- Settles O55: a latched step does nothing, a load too large neither, and the other operations write no latch. -/
theorem latchedErrorStays : Obligations.LatchedErrorStays := by
  intro op s e he hop hload
  cases op with
  | construct => exact absurd rfl hop
  | loadProgram bytes =>
    rcases perform_loadProgram_cases bytes s with ⟨hfits, -⟩ | ⟨-, h⟩
    · exact absurd hfits (Nat.not_le_of_gt (hload bytes rfl))
    · rwa [h]
  | step => rwa [perform_step (step_of_err he)]
  | setKey index pressed =>
    rw [perform, setKey_eq]
    exact he
  | tick | setDrawPermit | snapshotDisplay | isTonePlaying => exact he

/-- Settles O60: construct and load zero both timers, a tick counts them down, and a step writes a timer only by the instruction
excluded for it. -/
theorem timersNeverRiseByThemselves : Obligations.TimersNeverRiseByThemselves := by
  intro op s hword
  cases op with
  | construct => exact ⟨Nat.zero_le _, Nat.zero_le _⟩
  | loadProgram bytes =>
    rcases perform_loadProgram_cases bytes s with ⟨-, h⟩ | ⟨-, h⟩
    · rw [h, State.writeBytes_eq]
      exact ⟨Nat.zero_le _, Nat.zero_le _⟩
    · rw [h]
      exact ⟨le_rfl, le_rfl⟩
  | step =>
    obtain ⟨t, ht⟩ := everyStepAnswers s
    rw [perform_step ht]
    rcases step_effect ht with rfl | ⟨e, rfl⟩ | ⟨-, rfl | ⟨i, hi, heff⟩⟩
    · exact ⟨le_rfl, le_rfl⟩
    · exact ⟨le_rfl, le_rfl⟩
    · exact ⟨le_rfl, le_rfl⟩
    · have hdt := heff.dt_eq fun x hx => (hword rfl x).1 (hx ▸ hi)
      have hst := heff.st_eq fun x hx => (hword rfl x).2 (hx ▸ hi)
      exact ⟨(congrArg BitVec.toNat hdt).le, (congrArg BitVec.toNat hst).le⟩
  | tick =>
    exact ⟨(toNat_countDown s.dt).trans_le (Nat.sub_le _ _), (toNat_countDown s.st).trans_le (Nat.sub_le _ _)⟩
  | setKey index pressed =>
    rw [perform, setKey_eq]
    exact ⟨le_rfl, le_rfl⟩
  | setDrawPermit | snapshotDisplay | isTonePlaying => exact ⟨le_rfl, le_rfl⟩

/-! ### Invariants of runs -/

/-- Memory is empty after a construct, an image that fits is stored in bounds, and a step keeps the form (log 11). -/
theorem perform_memCanonical (op : HostOp) (hs : s.memCanonical) : (perform op s).1.memCanonical := by
  cases op with
  | construct => exact Memory.nil_wf
  | loadProgram bytes =>
    rcases perform_loadProgram_cases bytes s with ⟨hfits, h⟩ | ⟨-, h⟩
    · rw [h, State.writeBytes_eq]
      exact State.writeBytes_wf Memory.nil_wf (.inr (Nat.add_le_of_le_sub' (by decide) hfits))
    · rwa [h]
  | step =>
    obtain ⟨t, ht⟩ := everyStepAnswers s
    rw [perform_step ht]
    exact stepKeepsMemoryCanonical s t hs ht
  | setKey index pressed =>
    rw [perform, setKey_eq]
    exact hs
  | tick | setDrawPermit | snapshotDisplay | isTonePlaying => exact hs

/-- A construct and a load put `pc` and the stack at their reset values, and a step keeps the bounds (R13). -/
theorem perform_pcBounded (op : HostOp) (hs : s.pcBounded) : (perform op s).1.pcBounded := by
  cases op with
  | construct => exact State.reset_pcBounded
  | loadProgram bytes =>
    rcases perform_loadProgram_cases bytes s with ⟨-, h⟩ | ⟨-, h⟩
    · rw [h, State.writeBytes_eq]
      exact State.reset_pcBounded
    · rwa [h]
  | step =>
    obtain ⟨t, ht⟩ := everyStepAnswers s
    rw [perform_step ht]
    exact stepKeepsPcBounded s t hs ht
  | setKey index pressed =>
    rw [perform, setKey_eq]
    exact hs
  | tick | setDrawPermit | snapshotDisplay | isTonePlaying => exact hs

/-- What holds of a state and is kept by every operation holds after every run from it (R142). -/
theorem runOps_invariant {P : State → Prop} (hs : P s) (hop : ∀ op s, P s → P (perform op s).1) (ops : List HostOp) :
    P (runOps ops s) :=
  List.foldlRecOn ops _ hs fun s hs op _ => hop op s hs

/-- Settles O59: both invariants hold at reset and every operation keeps them. -/
theorem everyRunKeepsInvariants : Obligations.EveryRunKeepsInvariants :=
  fun ops => ⟨runOps_invariant Memory.nil_wf (fun op _ => perform_memCanonical op) ops,
    runOps_invariant State.reset_pcBounded (fun op _ => perform_pcBounded op) ops⟩

end Sys2Proof.Machine
end

section
/-! PROOFS. Reset and loading (R150 to R152), the jump to itself (R154), and the display without a permit (R155). -/

namespace Sys2Proof.Machine

variable {i : Instr} {s t : State}

/-! ### Construct -/

/-- The font bytes read as the table's, from `FONT_BASE` on (R24, R31). -/
theorem resetByte_fontBase_add (c : Config) (j : Fin 80) : resetByte c (c.fontBase.val + j.val) = c.fontTable[j] := by
  have hin : c.fontBase.val ≤ c.fontBase.val + j.val ∧ c.fontBase.val + j.val < c.fontBase.val + 80 := by omega
  simp only [resetByte, dif_pos hin, Nat.add_sub_cancel_left, Fin.getElem_fin]

/-- A byte that is none of the font's is 0 at reset (R24). -/
theorem resetByte_of_not_font (c : Config) {a : Nat} (ha : ∀ j : Fin 80, a ≠ c.fontBase.val + j.val) : resetByte c a = 0 :=
  dif_neg fun ⟨hlo, hhi⟩ => ha ⟨a - c.fontBase.val, by omega⟩ (by simp only; omega)

/-- Settles O2: the elements are those of the reset state, and with no cell listed memory reads as its reset contents under the
machine's own parameters. -/
theorem constructResetsEverything : Obligations.ConstructResetsEverything :=
  fun s => ⟨construct s, rfl, State.reset_reg, rfl, rfl, rfl, fun k => Vector.getElem_replicate k.isLt, rfl, rfl,
    pixelOf_blankDisplay, fun k => Vector.getElem_replicate k.isLt, rfl, rfl,
    resetByte_fontBase_add s.cfg, fun _ => resetByte_of_not_font s.cfg, rfl⟩

/-! ### Load -/

/-- Settles O3: the image is a run of writes on the constructed state, which lists no cell, so it is canonical before and after. -/
theorem loadResetsThenCopies : Obligations.LoadResetsThenCopies := by
  intro bytes s hlen
  rcases perform_loadProgram_cases bytes s with ⟨hfits, h⟩ | ⟨hlarge, -⟩
  · have hwf : Memory.wf (construct s).cfg ((construct s).writeBytes progBase bytes).mem :=
      State.writeBytes_wf Memory.nil_wf (.inr (Nat.add_le_of_le_sub' (by decide) hfits))
    exact ⟨_, h, fun j hj => State.readByte_writeBytes_add _ _ hj, fun a ha => State.readByte_writeBytes_of_outside _ ha,
      by rwa [State.writeBytes_eq], State.writeBytes_frame _ _ _⟩
  · exact absurd hlen (Nat.not_le_of_gt hlarge)

/-- Settles O4: the size check comes first. -/
theorem loadTooLargeChangesNothing : Obligations.LoadTooLargeChangesNothing := by
  intro bytes s hlen
  rcases perform_loadProgram_cases bytes s with ⟨hfits, -⟩ | ⟨-, h⟩
  · exact absurd hfits (Nat.not_le_of_gt hlen)
  · exact h

/-! ### A jump to itself -/

/-- A step that answers its own state answers it again after any number of steps. -/
theorem runOps_steps_of_step_eq (h : step s = .next s) (k : Nat) : runOps (List.replicate k .step) s = s := by
  have hop : (perform .step s).1 = s := congrArg Prod.fst (perform_step h)
  refine List.foldlRecOn (motive := (· = s)) _ _ rfl fun t ht op hmem => ?_
  rw [ht, List.eq_of_mem_replicate hmem, hop]

theorem State.setPc_self (s : State) : s.setPc s.pc = s := rfl

/-- Settles O12: the jump puts `pc`, which the fetch advanced, back to what it was, and writes nothing else. -/
theorem selfJumpIsFixedPoint : Obligations.SelfJumpIsFixedPoint := by
  intro s nnn k hl hf hi hpc
  have hjump : exec (.jp nnn) s.advance = .next (s.setPc (zext16 nnn)) := rfl
  rw [← hpc, State.setPc_self] at hjump
  exact runOps_steps_of_step_eq ((step_eq_exec hl hf hi).trans hjump) k

/-! ### No draw without the permit -/

/-- Without the permit only 00E0 changes a pixel (R105, R106). -/
theorem Effect.disp_eq_of_no_permit (h : Effect i s t) (hp : s.permit = false) (hc : i ≠ .cls) : t.disp = s.disp := by
  cases h with
  | cleared hi => exact absurd hi hc
  | drawn x y n hi hp' => cases hp.symm.trans hp'
  | _ => rfl

/-- Without the permit a step that does not execute 00E0 keeps the display. -/
theorem step_disp_eq_of_no_permit (h : step s = .next t) (hp : s.permit = false) (hc : decodeWord s.word ≠ some .cls) :
    t.disp = s.disp := by
  rcases step_effect h with rfl | ⟨e, rfl⟩ | ⟨-, rfl | ⟨i, hi, he⟩⟩
  · rfl
  · rfl
  · rfl
  · exact he.disp_eq_of_no_permit hp fun hcls => hc (hcls ▸ hi)

/-- No step brings the permit (R20, R135). -/
theorem step_permit_of_no_permit (h : step s = .next t) (hp : s.permit = false) : t.permit = false := by
  obtain ⟨hpermit, -⟩ := stepKeepsWhatTheHostOwns s t h
  simpa [hp] using hpermit

/-- Settles O54: construct and load take the permit away, a step neither brings it nor draws without it, and no other operation but
the setter writes the permit or the display. -/
theorem noDrawWithoutPermit : Obligations.NoDrawWithoutPermit := by
  intro op s hp hset
  cases op with
  | construct => exact ⟨rfl, fun hop => absurd rfl hop⟩
  | loadProgram bytes =>
    refine ⟨?_, fun _ hop => absurd rfl (hop bytes)⟩
    rcases perform_loadProgram_cases bytes s with ⟨-, h⟩ | ⟨-, h⟩
    · rw [h, State.writeBytes_eq]
      rfl
    · rwa [h]
  | step =>
    obtain ⟨t, ht⟩ := everyStepAnswers s
    rw [perform_step ht]
    exact ⟨step_permit_of_no_permit ht hp, fun _ _ hcls => step_disp_eq_of_no_permit ht hp (hcls rfl)⟩
  | setKey index pressed =>
    rw [perform, setKey_eq]
    exact ⟨hp, fun _ _ _ => rfl⟩
  | setDrawPermit ready =>
    have hready : ready = false := eq_false_of_ne_true fun e => hset (e ▸ rfl)
    exact ⟨hready, fun _ _ _ => rfl⟩
  | tick | snapshotDisplay | isTonePlaying => exact ⟨hp, fun _ _ _ => rfl⟩

end Sys2Proof.Machine
end
